-- ==== Sys2Proof/Word.lean ====
section
/-! DEFINITION. The widths of CHACHA20-CORE (spec 00_scope R5, R6; 30_encoding R51, R54). -/

namespace Sys2Proof

/-- A word: 32 bits, bit 0 the least significant (R6). Data words, byte addresses (`ADDR_W` = 32) and
byte counts all have this width (R54). -/
abbrev Word := BitVec 32

/-- A byte: 8 bits (R6). -/
abbrev Byte := BitVec 8

/-- The `CTX` field of a command: an unsigned 8-bit context number (R51, R54). -/
abbrev CtxNum := BitVec 8

/-- The 128 bits of `cmd_data` (R51). -/
abbrev Command := BitVec 128

/-- Sixteen words: one cipher state, one working copy, one keystream block before serialization (R8, R10). -/
abbrev Block := Vector Word 16

/-- One past the last byte address, `2^ADDR_W` (R25, R30). -/
abbrev memTop : Nat := 2 ^ 32

end Sys2Proof
end

