-- ==== Sys2Proof/Config.lean ====
section
/-! DEFINITION. What an implementation fixes (spec 00_scope R5) and the one free value of the spec (R152). -/

namespace Sys2Proof

/-- The parameters marked OPEN in R5, less `NCTX`. They stand in `State`, so that a statement about every state is a
statement about every value of them; no step changes them. `NCTX` is the number of contexts the state holds.
DESIGN CHOICE (log entry 1), safe. -/
structure Config where
  /-- `SNAPSHOT_EN`: whether `SAVECTX` and `LOADCTX` exist (R5, R129). -/
  snapshotEn : Bool
  /-- `CONST32`: the constant set of a 32-byte key (R5, R81). -/
  const32 : Vector Word 4
  /-- `CONST16`: the constant set of a 16-byte key (R5, R81). -/
  const16 : Vector Word 4
  deriving DecidableEq, Repr

/-- The defaults of R5. PRESUMED for the two constant sets (log entry 2), unsafe: the spec marks their values as general
knowledge. -/
def Config.default : Config where
  snapshotEn := true
  const32 := #v[0x61707865, 0x3320646e, 0x79622d32, 0x6b206574]
  const16 := #v[0x61707865, 0x3120646e, 0x79622d36, 0x6b206574]

/-- The default of `NCTX` (R5). -/
def Config.defaultNctx : Nat := 1

/-- FREE VALUE (log entry 12). Whether, at the `draw`-th abandoned command, the byte at address `a` of its write footprint
had already been written when reset came: "which bytes had been written is not defined" (R152). No body: nothing can be
proved of it. -/
opaque Config.landed (draw a : Nat) : Bool

end Sys2Proof
end

