-- ==== Sys2Proof/Syntax.lean ====
section
/-! DEFINITION. The five commands (spec 30_encoding R52, R53). -/

namespace Sys2Proof

/-- A decoded command: one constructor per row of the opcode map (R53), its fields the operands of its form (R52), each an
unsigned number taken directly from its bits (R54). -/
inductive Instr where
  /-- `SETKEY ctx, key_addr, key_len` (form K, R80). -/
  | setkey (ctx : CtxNum) (keyAddr keyLen : Word)
  /-- `SETIV ctx, nonce_addr, nonce_len, counter` (form V, R84). -/
  | setiv (ctx : CtxNum) (nonceAddr nonceLen counter : Word)
  /-- `PROCESS ctx, out_addr, in_addr, length` (form P, R110). -/
  | process (ctx : CtxNum) (outAddr inAddr length : Word)
  /-- `SAVECTX ctx, addr` (form S, R125). -/
  | savectx (ctx : CtxNum) (addr : Word)
  /-- `LOADCTX ctx, addr` (form S, R126). -/
  | loadctx (ctx : CtxNum) (addr : Word)
  deriving DecidableEq, Repr

/-- The `CTX` field, which every command has (R51). -/
def Instr.ctx : Instr → CtxNum
  | .setkey c _ _ => c
  | .setiv c _ _ _ => c
  | .process c _ _ _ => c
  | .savectx c _ => c
  | .loadctx c _ => c

end Sys2Proof
end

