-- ==== Sys2Proof/WellFormed.lean ====
section
/-! DEFINITION. Which decoded commands exist in a core (spec 30_encoding R53, R55; 44_snapshot R129). -/

namespace Sys2Proof

/-- Every value of every field is encodable (R54), so the one check is that the snapshot commands exist only when
`SNAPSHOT_EN` = 1 (R53, R129). A `CTX` the core lacks, or a wrong length, is no illegal encoding: it is an error found
after decoding (R55, R133). -/
def Instr.wf (snapshotEn : Bool) : Instr → Bool
  | .setkey _ _ _ => true
  | .setiv _ _ _ _ => true
  | .process _ _ _ _ => true
  | .savectx _ _ => snapshotEn
  | .loadctx _ _ => snapshotEn

end Sys2Proof
end

