-- ==== Sys2Proof/Decode.lean ====
section
/-! DEFINITION. Decoding a 128-bit command, total (spec 30_encoding R51 to R55, R60), and the encoder (R58). -/

namespace Sys2Proof

/-- Why a command is illegal (R55); each ends it with `InvalidArgument(4)` (R131). -/
inductive Illegal where
  /-- `OPCODE` is `0x00` or `0x06` to `0xff`. -/
  | opcode
  /-- `OPCODE` is `0x04` or `0x05` and `SNAPSHOT_EN` = 0. -/
  | noSnapshot
  /-- `RSV0` is not 0. -/
  | reserved0
  /-- A reserved operand word of the command's form (`B` or `C`) is not 0. -/
  | reservedOperand
  deriving DecidableEq, Repr

/-! The fields of a command (R51). -/

def opcodeOf (d : Command) : BitVec 8 := d.extractLsb' 0 8
def ctxOf (d : Command) : CtxNum := d.extractLsb' 8 8
def rsv0Of (d : Command) : BitVec 16 := d.extractLsb' 16 16
def operandA (d : Command) : Word := d.extractLsb' 32 32
def operandB (d : Command) : Word := d.extractLsb' 64 32
def operandC (d : Command) : Word := d.extractLsb' 96 32

/-! The operand forms (R52): what each reads of the operand words, a reserved one being checked. -/

def decodeFormK (d : Command) : Except Illegal Instr :=
  if operandC d = 0 then .ok (.setkey (ctxOf d) (operandA d) (operandB d)) else .error .reservedOperand

def decodeFormV (d : Command) : Except Illegal Instr :=
  .ok (.setiv (ctxOf d) (operandA d) (operandB d) (operandC d))

def decodeFormP (d : Command) : Except Illegal Instr :=
  .ok (.process (ctxOf d) (operandA d) (operandB d) (operandC d))

def decodeFormS (snapshotEn : Bool) (d : Command) (mk : CtxNum → Word → Instr) : Except Illegal Instr :=
  if snapshotEn = false then .error .noSnapshot
  else if operandB d = 0 ∧ operandC d = 0 then .ok (mk (ctxOf d) (operandA d))
  else .error .reservedOperand

/-- The total decoding procedure of R60. -/
def decode (snapshotEn : Bool) (d : Command) : Except Illegal Instr :=
  if rsv0Of d ≠ 0 then .error .reserved0
  else if opcodeOf d = 0x01 then decodeFormK d
  else if opcodeOf d = 0x02 then decodeFormV d
  else if opcodeOf d = 0x03 then decodeFormP d
  else if opcodeOf d = 0x04 then decodeFormS snapshotEn d .savectx
  else if opcodeOf d = 0x05 then decodeFormS snapshotEn d .loadctx
  else .error .opcode

/-- `cmd_data = {C, B, A, 16'b0, ctx[7:0], OPCODE}` (R58). -/
def pack (opcode : BitVec 8) (ctx : CtxNum) (a b c : Word) : Command :=
  c ++ b ++ a ++ 0#16 ++ ctx ++ opcode

/-- The command word of an instruction, reserved operand words 0 (R52, R53, R58). -/
def encode : Instr → Command
  | .setkey ctx keyAddr keyLen => pack 0x01 ctx keyAddr keyLen 0
  | .setiv ctx nonceAddr nonceLen counter => pack 0x02 ctx nonceAddr nonceLen counter
  | .process ctx outAddr inAddr length => pack 0x03 ctx outAddr inAddr length
  | .savectx ctx addr => pack 0x04 ctx addr 0 0
  | .loadctx ctx addr => pack 0x05 ctx addr 0 0

/-- A row of the opcode map as mask and match (R53, second table). -/
structure TableRow where
  mask : Command
  pattern : Command
  deriving DecidableEq, Repr

/-- The row of each command (R53, second table). -/
def Instr.row : Instr → TableRow
  | .setkey _ _ _ => ⟨0xffffffff_00000000_00000000_ffff00ff, 0x00000000_00000000_00000000_00000001⟩
  | .setiv _ _ _ _ => ⟨0x00000000_00000000_00000000_ffff00ff, 0x00000000_00000000_00000000_00000002⟩
  | .process _ _ _ _ => ⟨0x00000000_00000000_00000000_ffff00ff, 0x00000000_00000000_00000000_00000003⟩
  | .savectx _ _ => ⟨0xffffffff_ffffffff_00000000_ffff00ff, 0x00000000_00000000_00000000_00000004⟩
  | .loadctx _ _ => ⟨0xffffffff_ffffffff_00000000_ffff00ff, 0x00000000_00000000_00000000_00000005⟩

/-- A command word as the host numbers its bits, bit 0 least significant; bits above `nbits` are 0. -/
def commandOfNat (nbits w : Nat) : Command := BitVec.ofNat 128 (w % 2 ^ nbits)

/-- What the decoder reads from the word `w`, with the default `SNAPSHOT_EN`. -/
def decodeTableWord (nbits w : Nat) : Option Instr :=
  (decode Config.default.snapshotEn (commandOfNat nbits w)).toOption

end Sys2Proof
end

