-- ==== Sys2Proof/Machine/State.lean ====
section
/-! DEFINITION. The state of CHACHA20-CORE and of the host that drives it, as plain data (spec 10_state; 20_memory R30,
R38, R44; 30_encoding R50), and the state after reset (10_state R26). -/

namespace Sys2Proof.Machine

/-! ## Memory -/

/-- The 2^32 bytes behind the memory port (R25, R30), as (address, byte) pairs: addresses strictly rising, no entry equal to
what an unlisted address reads as. -/
abbrev Memory := List Host.Cell

/-- What an unlisted address reads as: memory the host has not written. DESIGN CHOICE (log entry 3), unsafe: the spec gives
the memory no initial contents ("it is the host's", R26). -/
def Memory.unlisted : Byte := 0

/-- The canonical form: addresses strictly rising and inside the address space, no entry equal to the unlisted value. -/
abbrev Memory.wf (m : Memory) : Prop :=
  m.Pairwise (fun c d => c.1 < d.1) ∧ ∀ c ∈ m, c.1 < memTop ∧ c.2 ≠ Memory.unlisted

/-- What the platform has at an admitted address. -/
inductive RegionKind where
  /-- Plain memory: a read has no side effect and returns the byte last written (R38). -/
  | plain
  /-- A location with read side effects (R38). -/
  | device
  deriving DecidableEq, Repr

/-- A range of addresses the platform admits (R43, R44: "the platform's to say"). -/
structure Region where
  base : Nat
  size : Nat
  kind : RegionKind
  deriving DecidableEq, Repr

/-! ## The core -/

/-- One context: the cipher state of 16 words (R10, R11) and the two flags (R17). -/
structure Context where
  /-- `X[c][0..15]`: constants 0 to 3, key 4 to 11, block counter 12, nonce 13 to 15 (R11). -/
  x : Block
  /-- `KEYED[c]` (R17). -/
  keyed : Bool
  /-- `IVSET[c]` (R17). -/
  ivset : Bool
  deriving DecidableEq, Repr

/-- A context after reset (R26). -/
def Context.cleared : Context where
  x := Vector.replicate 16 0
  keyed := false
  ivset := false

/-- The cause of an `InvalidArgument` (R131). -/
inductive Cause where
  /-- 1, `CTX_ABSENT`: `CTX >= NCTX` (R132). -/
  | ctxAbsent
  /-- 2, `KEYLEN`: `KEY_LEN` is neither 16 nor 32. -/
  | keyLen
  /-- 3, `NONCELEN`: `NONCE_LEN` is not 12. -/
  | nonceLen
  /-- 4, `ILLEGAL_CMD`: not one of the five commands (R55). -/
  | illegalCmd
  deriving DecidableEq, Repr

/-- The stored part of `STATUS` (R18). `BUSY` is not stored here: it is 1 exactly while a command is captured
(`State.busy`). DEDUCED (log entry 16), safe. -/
structure Status where
  /-- `DONE`: a command has completed and none has been accepted since. -/
  done : Bool
  /-- `ERR` and `CAUSE` in one: absent is `ERR` = 0, `CAUSE` = 0. -/
  error : Option Cause
  /-- `SERR`, sticky until reset. -/
  serr : Bool
  deriving DecidableEq, Repr

/-- `STATUS` after reset (R26). -/
def Status.cleared : Status where
  done := false
  error := none
  serr := false

/-- The hidden working state (R22, R23): the permutation's working copy and the stream engine's registers. -/
structure Work where
  /-- `w[0..15]` (R22, R96). -/
  w : Block
  /-- `ks[0..63]`, the keystream buffer (R111). -/
  ks : Vector Byte 64
  /-- `op`, the current output address. -/
  op : Word
  /-- `ip`, the current input address. -/
  ip : Word
  /-- `rem`, the bytes remaining. -/
  rem : Word
  deriving DecidableEq, Repr

/-- The working state after reset, and between commands (R23, R26). -/
def Work.cleared : Work where
  w := Vector.replicate 16 0
  ks := Vector.replicate 64 0
  op := 0
  ip := 0
  rem := 0

/-! ## The host -/

/-- What the host can do to the core and to the memory (R21, R30, R50, R150). -/
inductive HostAct where
  /-- Drive `cmd_valid` high with `d` on `cmd_data` until it is accepted (R50). -/
  | present (d : Command)
  /-- Wait until the command in flight, if any, has completed (R40 item 3). -/
  | awaitDone
  /-- Store one byte to the memory by the host's own means (R30). -/
  | store (a : Word) (b : Byte)
  /-- Load one byte from the memory by the host's own means (R30). -/
  | load (a : Word)
  /-- Read status register number `sel` on its own port (R21, R50). -/
  | readStatus (sel : BitVec 2)
  /-- Assert `rst` (R150). -/
  | assertReset
  /-- Release `rst` (R150). -/
  | releaseReset
  deriving DecidableEq, Repr

/-! ## The whole state -/

/-- Everything the spec gives the machine. The core: `ctxs`, `status`, `captured`, `work`, `cfg`. Memory and platform:
`mem`, `platform`. The interface and the host: `srData`, `loadData`, `rst`, `host`. The model's own: `draws`. -/
structure State where
  /-- The contexts 0 to `NCTX - 1`; `NCTX` is their number (R5, R10). -/
  ctxs : List Context
  /-- `STATUS` but for `BUSY` (R18). -/
  status : Status
  /-- The command in execution, captured whole at acceptance (R46); present exactly while `BUSY` = 1 (R18). -/
  captured : Option Command
  /-- Hidden working state (R22, R23). -/
  work : Work
  /-- The open parameters (R5). -/
  cfg : Config
  /-- The memory behind the memory port (R30). -/
  mem : Memory
  /-- The addresses the platform admits (R38, R44); an address in no region is not admitted. -/
  platform : List Region
  /-- `sr_data` as the host last read it (R21, R50). -/
  srData : Word
  /-- The byte the host's last load returned (model's own, log entry 14). -/
  loadData : Byte
  /-- `rst` is asserted (R50, R150). -/
  rst : Bool
  /-- What the host has still to do, in order (R16: the program of a claim; log entry 5). -/
  host : List HostAct
  /-- How many free values have been drawn (model's own, log entry 12). -/
  draws : Nat
  deriving DecidableEq, Repr

/-- Why the machine stops with no step. -/
inductive Fault where
  /-- A footprint reaches an address the platform does not admit: "the core is stuck" (R44). Raised by every command that
  accesses memory, and by a host store or load there. Safe: nothing follows it. -/
  | notAdmitted
  deriving DecidableEq, Repr

/-- Why the model refuses a step. Each but the first is a launch the spec says a model refuses. -/
inductive Refusal where
  /-- The instruction has no meaning in the model yet; raised by `exec` only. Safe. -/
  | notModelled (mnemonic : String)
  /-- A range runs past the top of the address space (R43). Raised by every command that accesses memory. Safe. -/
  | rangeWraps
  /-- A footprint reaches a device location (R38). Raised by every command that accesses memory, and by a host store or load
  there. Safe. -/
  | deviceMemory
  /-- Input and output of a `PROCESS` overlap without being identical (R42). Raised by `PROCESS`. Safe. -/
  | partialOverlap
  /-- The host touches a buffer of the command in flight (R41). Raised by a host store or load. Safe. -/
  | bufferRace
  deriving DecidableEq, Repr

/-- The platform of `State.reset`: all 2^32 addresses plain memory. DESIGN CHOICE (log entry 4), unsafe. -/
def defaultPlatform : List Region := [⟨0, memTop, .plain⟩]

/-- The state after reset, `rst` released (R26, R150), of a core with `nctx` contexts and parameters `cfg`, the memory never written. -/
def State.resetWith (nctx : Nat) (cfg : Config) : State where
  ctxs := List.replicate nctx Context.cleared
  status := Status.cleared
  captured := none
  work := Work.cleared
  cfg := cfg
  mem := []
  platform := defaultPlatform
  srData := 0
  loadData := 0
  rst := false
  host := []
  draws := 0

/-- The state after reset with the default parameters of R5. -/
def State.reset : State := State.resetWith Config.defaultNctx Config.default

end Sys2Proof.Machine
end

