-- ==== Sys2Proof/Machine/Ops.lean ====
section
/-! DEFINITION. The named operations over memory, platform, contexts and command status (spec 20_memory R31, R32, R43, R44;
60_exceptions R133 to R135). -/

namespace Sys2Proof.Machine

/-- The outcome of a step of this machine. -/
abbrev Result := Host.Outcome State Fault Refusal

/-! ## Memory -/

/-- The byte at an address (R31 for one byte). -/
def Memory.read : Memory → Nat → Byte
  | [], _ => Memory.unlisted
  | (b, v) :: m, a => if a = b then v else Memory.read m a

/-- Store a byte at an address (R32 for one byte), keeping the canonical form. -/
def Memory.write : Memory → Nat → Byte → Memory
  | [], a, v => if v = Memory.unlisted then [] else [(a, v)]
  | (b, w) :: m, a, v =>
    if a < b then (if v = Memory.unlisted then (b, w) :: m else (a, v) :: (b, w) :: m)
    else if a = b then (if v = Memory.unlisted then m else (a, v) :: m)
    else (b, w) :: Memory.write m a v

/-- `MemRead(addr, n)`, the byte at `addr` first (R31). -/
def Memory.readBytes (m : Memory) (a n : Nat) : List Byte := (List.range n).map (fun i => m.read (a + i))

/-- `MemWrite(addr, n, bs)`, `bs[0]` at `addr` (R32). -/
def Memory.writeBytes (m : Memory) (a : Nat) : List Byte → Memory
  | [] => m
  | b :: bs => Memory.writeBytes (m.write a b) (a + 1) bs

/-! ## Platform and ranges -/

/-- What the platform has at an address; absent where it admits nothing (R44). -/
def State.kindAt (s : State) (a : Nat) : Option RegionKind :=
  (s.platform.find? (fun r => decide (r.base ≤ a ∧ a < r.base + r.size))).map (fun r => r.kind)

/-- The range `a ... a+n-1` meets the host's duties: it does not pass the top of the address space (R43) and every address
of it is admitted plain memory (R38, R44). -/
abbrev State.PlainRange (s : State) (a n : Nat) : Prop :=
  a + n ≤ memTop ∧ ∀ i, i < n → s.kindAt (a + i) = some .plain

/-- Go on with `k` if the range meets the duties; else stop: a wrapping range is refused (R43), a device location is refused
(R38), an address not admitted leaves the core stuck (R44). The spec gives no order where a range breaks several of these; the order
here is a DESIGN CHOICE (log entry 11), safe. -/
def State.withRange (s : State) (a n : Nat) (k : Result) : Result :=
  if s.PlainRange a n then k
  else if memTop < a + n then .refused .rangeWraps
  else if (List.range n).any (fun i => decide (s.kindAt (a + i) = some .device)) then .refused .deviceMemory
  else .fault .notAdmitted

/-! ## Contexts -/

/-- `NCTX` (R5, R10). -/
def State.nctx (s : State) : Nat := s.ctxs.length

/-- Context `c`; used only where `c < NCTX`. -/
def State.ctxAt (s : State) (c : CtxNum) : Context := s.ctxs[c.toNat]?.getD Context.cleared

/-- Change context `c` and no other (R15, R144). -/
def State.updCtx (s : State) (c : CtxNum) (f : Context → Context) : State :=
  { s with ctxs := s.ctxs.modify c.toNat f }

/-! ## Acceptance, completion, and the one error -/

/-- `BUSY` (R18). -/
def State.busy (s : State) : Bool := s.captured.isSome

/-- `cmd_ready`: low while `BUSY` = 1 (R50) and while `rst` is asserted (R150). -/
def State.cmdReady (s : State) : Bool := !s.busy && !s.rst

/-- Acceptance of a command (R46, R135): all 128 bits captured, `BUSY` = 1, `DONE` = 0, `ERR` = 0, `CAUSE` = 0, `SERR`
left. -/
def State.accept (s : State) (d : Command) : State :=
  { s with captured := some d, status := { done := false, error := none, serr := s.status.serr } }

/-- Completion with result `OK` (R135): `BUSY` = 0, `DONE` = 1, `ERR` = 0, `CAUSE` = 0, `SERR` left. -/
def State.completeOk (s : State) : State :=
  { s with captured := none, status := { done := true, error := none, serr := s.status.serr } }

/-- Completion with result `InvalidArgument(k)`, the whole "trap entry" (R130, R134): `BUSY` = 0, `DONE` = 1, `ERR` = 1,
`SERR` = 1, `CAUSE` = `k`, and nothing else. -/
def State.completeErr (s : State) (k : Cause) : State :=
  { s with captured := none, status := { done := true, error := some k, serr := true } }

/-- The length check of a command: `KEY_LEN` is 16 or 32, `NONCE_LEN` is 12, each compared in full (R54, R83, R85, R133
item 3). The other commands have none. -/
def lengthError : Instr → Option Cause
  | .setkey _ _ keyLen => if keyLen = 16 ∨ keyLen = 32 then none else some .keyLen
  | .setiv _ _ nonceLen _ => if nonceLen = 12 then none else some .nonceLen
  | .process _ _ _ _ => none
  | .savectx _ _ => none
  | .loadctx _ _ => none

/-- The checks of a decoded command in the order of R133, on its fields alone: the encoding (here: the snapshot commands
exist), the context (R132), the length. The first that fails gives the cause. -/
def State.checkCommand (s : State) (i : Instr) : Option Cause :=
  if i.wf s.cfg.snapshotEn = false then some .illegalCmd
  else if s.nctx ≤ i.ctx.toNat then some .ctxAbsent
  else lengthError i

/-- Perform `k` if the command passes the checks, else end it with the error (R130, R133, R134). -/
def State.guarded (s : State) (i : Instr) (k : Result) : Result :=
  match s.checkCommand i with
  | some cause => .next (s.completeErr cause)
  | none => k

end Sys2Proof.Machine
end

