-- ==== Sys2Proof/Machine/Flags.lean ====
section
/-! DEFINITION. The per-context flags and the status registers as the host reads them (spec 10_state R17 to R21;
60_exceptions R131). -/

namespace Sys2Proof.Machine

/-- The cause number recorded in `STATUS.CAUSE` (R131). -/
def Cause.code : Cause → BitVec 3
  | .ctxAbsent => 1
  | .keyLen => 2
  | .nonceLen => 3
  | .illegalCmd => 4

/-- `STATUS.CAUSE`: 0 when `ERR` = 0 (R18). -/
def Status.causeField (t : Status) : BitVec 3 :=
  match t.error with
  | some k => k.code
  | none => 0

/-- `STATUS`, register 0: `BUSY` 0, `DONE` 1, `ERR` 2, `SERR` 3, `CAUSE` 6:4, the rest 0 (R18). -/
def State.statusWord (s : State) : Word :=
  0#25 ++ s.status.causeField ++ BitVec.ofBool s.status.serr ++ BitVec.ofBool s.status.error.isSome
    ++ BitVec.ofBool s.status.done ++ BitVec.ofBool s.busy

/-- `CONFIG`, register 1: `NCTX` 7:0, `SNAPSHOT_EN` 8, `ROUNDS` (20) 23:16, the rest 0 (R19). -/
def State.configWord (s : State) : Word :=
  0#8 ++ 20#8 ++ 0#7 ++ BitVec.ofBool s.cfg.snapshotEn ++ BitVec.ofNat 8 s.nctx

/-- A flag of context number `c`, 0 where the core has no such context (R20). -/
def State.flagAt (s : State) (flag : Context → Bool) (c : Nat) : Bool :=
  match s.ctxs[c]? with
  | some ctx => flag ctx
  | none => false

/-- Sixteen flags as 16 bits, bit `c` that of context `c` (R20). -/
def State.flagBits (s : State) (flag : Context → Bool) : BitVec 16 :=
  BitVec.ofFnLE (fun c : Fin 16 => s.flagAt flag c.val)

/-- `CTXFLAGS`, register 2: bit `c` is `KEYED[c]`, bit `16 + c` is `IVSET[c]` (R20). -/
def State.ctxFlagsWord (s : State) : Word :=
  s.flagBits (fun c => c.ivset) ++ s.flagBits (fun c => c.keyed)

/-- The value of status register `sel`; number 3 reads 0 (R21). -/
def State.statusReg (s : State) (sel : BitVec 2) : Word :=
  if sel = 0 then s.statusWord
  else if sel = 1 then s.configWord
  else if sel = 2 then s.ctxFlagsWord
  else 0

/-- `KEYED[c] <- 1` (R17). -/
def Context.setKeyed (c : Context) : Context := { c with keyed := true }

/-- `IVSET[c] <- 1` (R17). -/
def Context.setIvset (c : Context) : Context := { c with ivset := true }

end Sys2Proof.Machine
end

