-- ==== Sys2Proof/Machine/Primitives.lean ====
section
/-! DEFINITION. The word primitives, the hardware's whole arithmetic (spec 40_primitives R70 to R75). -/

namespace Sys2Proof.Machine

/-- `ADD32(a, b) = (a + b) mod 2^32`, the carry discarded (R70). -/
def add32 (a b : Word) : Word := a + b

/-- `XOR32(a, b)` (R71). -/
def xor32 (a b : Word) : Word := a ^^^ b

/-- `XOR8`, the same on bytes (R71). -/
def xor8 (a b : Byte) : Byte := a ^^^ b

/-- `ROTL32(v, n)`, for `n` in 1 to 31, in the source's words `(x << n) | (x >> (32-n))` (R72). -/
def rotl32 (v : Word) (n : Nat) : Word := (v <<< n) ||| (v >>> (32 - n))

/-- `LE32(b0, b1, b2, b3) = {b3, b2, b1, b0}`, `b0` from the lowest address (R73). -/
def le32 (b0 b1 b2 b3 : Byte) : Word := b3 ++ b2 ++ b1 ++ b0

/-- `BYTES_LE(v)`: `v[7:0], v[15:8], v[23:16], v[31:24]`, lowest address first (R74). -/
def bytesLE (v : Word) : Vector Byte 4 :=
  #v[v.extractLsb' 0 8, v.extractLsb' 8 8, v.extractLsb' 16 8, v.extractLsb' 24 8]

end Sys2Proof.Machine
end

