-- ==== Sys2Proof/Machine/Operands.lean ====
section
/-! DEFINITION. What the operands of a command name in memory: little-endian word loads (spec 41_scheduler R86) and the
footprints (20_memory R37, R42). -/

namespace Sys2Proof.Machine

/-- `LE32(MemRead(addr, 4))`: the byte at the lowest address is the least significant (R33, R86). -/
def loadWord (m : Memory) (a : Nat) : Word :=
  le32 (m.read a) (m.read (a + 1)) (m.read (a + 2)) (m.read (a + 3))

/-- The bytes a command reads when its result is `OK`, as (base, count) (R37). -/
def readRange : Instr → Nat × Nat
  | .setkey _ keyAddr keyLen => (keyAddr.toNat, keyLen.toNat)
  | .setiv _ nonceAddr nonceLen _ => (nonceAddr.toNat, nonceLen.toNat)
  | .process _ _ inAddr length => (inAddr.toNat, length.toNat)
  | .savectx _ addr => (addr.toNat, 0)
  | .loadctx _ addr => (addr.toNat, 64)

/-- The bytes a command writes when its result is `OK`, as (base, count) (R37). -/
def writeRange : Instr → Nat × Nat
  | .setkey _ keyAddr _ => (keyAddr.toNat, 0)
  | .setiv _ nonceAddr _ _ => (nonceAddr.toNat, 0)
  | .process _ outAddr _ length => (outAddr.toNat, length.toNat)
  | .savectx _ addr => (addr.toNat, 64)
  | .loadctx _ addr => (addr.toNat, 0)

/-- Address `a` lies in a (base, count) range. -/
abbrev InRange (r : Nat × Nat) (a : Nat) : Prop := r.1 ≤ a ∧ a < r.1 + r.2

/-- The two supported cases of the output range `out` and the input range `inp` of one `PROCESS` of `n` bytes: identical, or
disjoint (R42). Anything else is a partial overlap. -/
abbrev SupportedOverlap (out inp n : Nat) : Prop := out = inp ∨ out + n ≤ inp ∨ inp + n ≤ out

end Sys2Proof.Machine
end

