-- ==== Sys2Proof/Machine/Scheduler.lean ====
section
/-! DEFINITION. The key/nonce scheduler: `SETKEY` and `SETIV` (spec 41_scheduler R80 to R87). -/

namespace Sys2Proof.Machine

/-- Words 4 to 7 of a key at `a`: `x[4+i] <- LE32(MemRead(a + 4*i, 4))` for `i` in 0 to 3, then words 8 to 11 the same from
`b`, then words 0 to 3 from the constant set `k` (R80). -/
def keyBlock (x : Block) (k : Vector Word 4) (m : Memory) (a b : Nat) : Block :=
  Vector.ofFn (fun i : Fin 16 =>
    if h : i.val < 4 then k[i.val]
    else if i.val < 8 then loadWord m (a + 4 * (i.val - 4))
    else if i.val < 12 then loadWord m (b + 4 * (i.val - 8))
    else x[i])

/-- The words `SETKEY` leaves in a context that held `x`: a 32-byte key fills words 4 to 11 and selects `CONST32`; a 16-byte
key is replicated and selects `CONST16` (R80 to R82). -/
def keyWords (cfg : Config) (m : Memory) (keyAddr keyLen : Word) (x : Block) : Block :=
  if keyLen = 32 then keyBlock x cfg.const32 m keyAddr.toNat (keyAddr.toNat + 16)
  else keyBlock x cfg.const16 m keyAddr.toNat keyAddr.toNat

/-- The words `SETIV` leaves in a context that held `x`: `x[12] <- COUNTER`, `x[13+i] <- LE32(MemRead(NONCE_ADDR + 4*i, 4))`
(R84). -/
def ivWords (m : Memory) (nonceAddr counter : Word) (x : Block) : Block :=
  Vector.ofFn (fun i : Fin 16 =>
    if i.val < 12 then x[i]
    else if i.val = 12 then counter
    else loadWord m (nonceAddr.toNat + 4 * (i.val - 13)))

/-- `SETKEY` (R80). -/
def execSetkey (ctx : CtxNum) (keyAddr keyLen : Word) (s : State) : Result :=
  s.guarded (.setkey ctx keyAddr keyLen)
    (s.withRange keyAddr.toNat keyLen.toNat
      (.next (s.updCtx ctx (fun c =>
        { c with x := keyWords s.cfg s.mem keyAddr keyLen c.x }.setKeyed)).completeOk))

/-- `SETIV` (R84). -/
def execSetiv (ctx : CtxNum) (nonceAddr nonceLen counter : Word) (s : State) : Result :=
  s.guarded (.setiv ctx nonceAddr nonceLen counter)
    (s.withRange nonceAddr.toNat nonceLen.toNat
      (.next (s.updCtx ctx (fun c =>
        { c with x := ivWords s.mem nonceAddr counter c.x }.setIvset)).completeOk))

end Sys2Proof.Machine
end

