-- ==== Sys2Proof/Machine/Permutation.lean ====
section
/-! DEFINITION. The permutation core (spec 42_permutation R90 to R104). -/

namespace Sys2Proof.Machine

/-- `QR(a, b, c, d)`, the twelve steps of R90 in order. -/
def qr (a b c d : Word) : Word × Word × Word × Word :=
  let a := add32 a b
  let d := xor32 d a
  let d := rotl32 d 16
  let c := add32 c d
  let b := xor32 b c
  let b := rotl32 b 12
  let a := add32 a b
  let d := xor32 d a
  let d := rotl32 d 8
  let c := add32 c d
  let b := xor32 b c
  let b := rotl32 b 7
  (a, b, c, d)

/-- `(w[i], w[j], w[k], w[l]) <- QR(w[i], w[j], w[k], w[l])` (R90). -/
def qrAt (w : Block) (i j k l : Fin 16) : Block :=
  let r := qr w[i] w[j] w[k] w[l]
  (((w.set i r.1).set j r.2.1).set k r.2.2.1).set l r.2.2.2

/-- `COLROUND(w)`: the four columns (R92). -/
def colRound (w : Block) : Block :=
  let w := qrAt w 0 4 8 12
  let w := qrAt w 1 5 9 13
  let w := qrAt w 2 6 10 14
  qrAt w 3 7 11 15

/-- `DIAGROUND(w)`: the four diagonals (R93). -/
def diagRound (w : Block) : Block :=
  let w := qrAt w 0 5 10 15
  let w := qrAt w 1 6 11 12
  let w := qrAt w 2 7 8 13
  qrAt w 3 4 9 14

/-- `DOUBLEROUND(w) = DIAGROUND(COLROUND(w))` (R94). -/
def doubleRound (w : Block) : Block := diagRound (colRound w)

/-- `n` double-rounds. -/
def doubleRounds : Nat → Block → Block
  | 0, w => w
  | n + 1, w => doubleRounds n (doubleRound w)

/-- `PERMUTE20(s)`: ten double-rounds on a working copy (R96, R97). -/
def permute20 (s : Block) : Block := doubleRounds 10 s

/-- The feed-forward: `o[i] = ADD32(w[i], s[i])` (R98). -/
def feedForward (w s : Block) : Block := Vector.ofFn (fun i : Fin 16 => add32 w[i] s[i])

/-- `BLOCK(s)`, a total function of the 16 words (R99, R104). -/
def block (s : Block) : Block := feedForward (permute20 s) s

/-- `SERIALIZE(o)`: `ks[4*i + j] = BYTES_LE(o[i])[j]` (R100); also the 64-byte image of a context (R127). -/
def serialize (o : Block) : Vector Byte 64 :=
  Vector.ofFn (fun k : Fin 64 => (bytesLE (o[k.val / 4]'(by omega)))[k.val % 4]'(by omega))

end Sys2Proof.Machine
end

