-- ==== Sys2Proof/Machine/Snapshot.lean ====
section
/-! DEFINITION. State snapshot and resume: `SAVECTX` and `LOADCTX` (spec 44_snapshot R125 to R129). -/

namespace Sys2Proof.Machine

/-- The words an image at `a` holds: `x[i] <- LE32(MemRead(a + 4*i, 4))` for `i` in 0 to 15 (R126). -/
def imageWords (m : Memory) (a : Nat) : Block := Vector.ofFn (fun i : Fin 16 => loadWord m (a + 4 * i.val))

/-- `SAVECTX` (R125): the image of R127 is written, word 0 at the lowest address. -/
def execSavectx (ctx : CtxNum) (addr : Word) (s : State) : Result :=
  s.guarded (.savectx ctx addr)
    (s.withRange addr.toNat 64
      (.next { s with mem := s.mem.writeBytes addr.toNat (serialize (s.ctxAt ctx).x).toList }.completeOk))

/-- `LOADCTX` (R126): the image is not validated. -/
def execLoadctx (ctx : CtxNum) (addr : Word) (s : State) : Result :=
  s.guarded (.loadctx ctx addr)
    (s.withRange addr.toNat 64
      (.next (s.updCtx ctx (fun c =>
        { c with x := imageWords s.mem addr.toNat }.setKeyed.setIvset)).completeOk))

end Sys2Proof.Machine
end

