-- ==== Sys2Proof/Machine/StreamEngine.lean ====
section
/-! DEFINITION. The stream engine: `PROCESS` (spec 43_stream R110 to R121). -/

namespace Sys2Proof.Machine

/-- What one `PROCESS` works on: the words of its context, the memory, and the hidden working state (R23). -/
structure Engine where
  x : Block
  mem : Memory
  work : Work
  deriving DecidableEq, Repr

/-- Byte `i` of the keystream buffer, `i` in 0 to 63 (R111). -/
def ksByte (ks : Vector Byte 64) (i : Nat) : Byte := ks[i]?.getD 0

/-- The combine (R113): for `i` in `0..n-1`, in that order, read input byte `i` and write output byte `i` (R40, R110). -/
def xorInto (ks : Vector Byte 64) (op ip n : Nat) (m : Memory) : Memory :=
  (List.range n).foldl (fun m i => m.write (op + i) (xor8 (m.read (ip + i)) (ksByte ks i))) m

/-- One iteration of the block loop up to the exit test (R110): a whole keystream block from the current words (R111), the
counter increment (R112), then up to 64 bytes combined (R113). -/
def engineBlock (e : Engine) : Engine :=
  let w := permute20 e.x
  let ks := serialize (feedForward w e.x)
  { x := e.x.set 12 (add32 e.x[12] 1)
    mem := xorInto ks e.work.op.toNat e.work.ip.toNat (min e.work.rem.toNat 64) e.mem
    work := { e.work with w := w, ks := ks } }

/-- `op <- op + 64; ip <- ip + 64; rem <- rem - 64` (R110). -/
def engineAdvance (e : Engine) : Engine :=
  { e with work := { e.work with op := e.work.op + 64, ip := e.work.ip + 64, rem := e.work.rem - 64 } }

/-- The loop of R110, at most `fuel` blocks. -/
def engineLoop : Nat → Engine → Engine
  | 0, e => e
  | fuel + 1, e =>
    if e.work.rem = 0 then e
    else if e.work.rem.toNat ≤ 64 then engineBlock e
    else engineLoop fuel (engineAdvance (engineBlock e))

/-- `ceil(n / 64)`: the number of blocks of the loop (R115, R121). -/
def blocksOf (n : Nat) : Nat := (n + 63) / 64

/-- The engine at the end of a `PROCESS` on context `ctx`. -/
def State.engineRun (s : State) (ctx : CtxNum) (outAddr inAddr length : Word) : Engine :=
  engineLoop (blocksOf length.toNat)
    { x := (s.ctxAt ctx).x, mem := s.mem, work := { s.work with op := outAddr, ip := inAddr, rem := length } }

/-- The engine's results put back: the words of context `ctx`, the memory. Nothing of the working state survives the command
(R23); that it reads as cleared between commands is a DESIGN CHOICE (log entry 15), safe. -/
def State.absorb (s : State) (ctx : CtxNum) (e : Engine) : State :=
  { s.updCtx ctx (fun c => { c with x := e.x }) with mem := e.mem, work := Work.cleared }

/-- `PROCESS` (R110). A partial overlap is refused (R42). A launch that breaks this duty together with a duty about its addresses
(R38, R43, R44) takes the stop of the address duty: the input range is tested first, then the output range, the overlap last. The
spec gives no order. DESIGN CHOICE (log entry 10), safe. -/
def execProcess (ctx : CtxNum) (outAddr inAddr length : Word) (s : State) : Result :=
  s.guarded (.process ctx outAddr inAddr length)
    (s.withRange inAddr.toNat length.toNat
      (s.withRange outAddr.toNat length.toNat
        (if SupportedOverlap outAddr.toNat inAddr.toNat length.toNat then
          .next (s.absorb ctx (s.engineRun ctx outAddr inAddr length)).completeOk
        else .refused .partialOverlap)))

end Sys2Proof.Machine
end

