-- ==== Sys2Proof/Machine/Dispatch.lean ====
section
/-! DEFINITION. The meaning of each command, one arm per row of the opcode map (spec 30_encoding R53). -/

namespace Sys2Proof.Machine

def exec (i : Instr) (s : State) : Host.Outcome State Fault Refusal :=
  match i with
  | .setkey ctx keyAddr keyLen => Sys2Proof.Machine.execSetkey ctx keyAddr keyLen s
  | .setiv ctx nonceAddr nonceLen counter => Sys2Proof.Machine.execSetiv ctx nonceAddr nonceLen counter s
  | .process ctx outAddr inAddr length => Sys2Proof.Machine.execProcess ctx outAddr inAddr length s
  | .savectx ctx addr => Sys2Proof.Machine.execSavectx ctx addr s
  | .loadctx ctx addr => Sys2Proof.Machine.execLoadctx ctx addr s

end Sys2Proof.Machine
end

