-- ==== Sys2Proof/Machine/HostActs.lean ====
section
/-! DEFINITION. Executing the captured command (spec 30_encoding R60; 60_exceptions R133), and what each act of the host does
(20_memory R30, R41; 10_state R21; 70_reset_and_hazards R150 to R153). -/

namespace Sys2Proof.Machine

/-- Execute a captured command to completion: its meaning, or `InvalidArgument(4)` where it is illegal (R55, R133). -/
def runCommand (d : Command) (s : State) : Result :=
  match decode s.cfg.snapshotEn d with
  | .ok i => exec i s
  | .error _ => .next (s.completeErr .illegalCmd)

/-- The core's turn: execute the command in flight, else (no command) go to `idle`. -/
def coreTurn (s idle : State) : Result :=
  match s.captured with
  | some d => runCommand d s
  | none => .next idle

/-- The command in flight that will access memory: captured, legal, passing the checks of R133 (a failing command makes no
access, R134). -/
def State.inFlight (s : State) : Option Instr :=
  match s.captured with
  | none => none
  | some d =>
    match decode s.cfg.snapshotEn d with
    | .ok i => if s.checkCommand i = none then some i else none
    | .error _ => none

/-- `a` lies in the read footprint of the command in flight (R37, R41). -/
def State.inReadFootprint (s : State) (a : Nat) : Bool :=
  match s.inFlight with
  | some i => decide (InRange (readRange i) a)
  | none => false

/-- `a` lies in the write footprint of the command in flight (R37, R41). -/
def State.inWriteFootprint (s : State) (a : Nat) : Bool :=
  match s.inFlight with
  | some i => decide (InRange (writeRange i) a)
  | none => false

/-- The host stores a byte (R30). While a command is in flight it must not write a byte of its read or write footprint:
refused (R41). That the race is looked at before the address is a DESIGN CHOICE (log entry 8), safe. -/
def hostStore (a : Word) (b : Byte) (s : State) : Result :=
  if s.inReadFootprint a.toNat || s.inWriteFootprint a.toNat then .refused .bufferRace
  else s.withRange a.toNat 1 (.next { s with mem := s.mem.write a.toNat b })

/-- The host loads a byte (R30). While a command is in flight it must not read a byte of its write footprint: refused (R41). That
the race is looked at before the address is a DESIGN CHOICE (log entry 8), safe. -/
def hostLoad (a : Word) (s : State) : Result :=
  if s.inWriteFootprint a.toNat then .refused .bufferRace
  else s.withRange a.toNat 1 (.next { s with loadData := s.mem.read a.toNat })

/-- The host reads a status register: no side effect, at any time (R21). -/
def hostReadStatus (sel : BitVec 2) (s : State) : Result := .next { s with srData := s.statusReg sel }

/-- What the assertion of `rst` leaves of the core (R26, R150, R153): contexts, flags, `STATUS` and working state cleared;
memory not touched. -/
def State.resetCore (s : State) : State :=
  { s with
    ctxs := s.ctxs.map (fun _ => Context.cleared)
    status := Status.cleared
    captured := none
    work := Work.cleared
    rst := true }

/-- The memory an abandoned command leaves in its write footprint (R152): each byte either as the command would have written
it (`new`) or as before (`old`), which of the two being a free value. -/
def abandonedMemory (draw base n : Nat) (old new : Memory) : Memory :=
  (List.range n).foldl
    (fun m i => if Config.landed draw (base + i) then m.write (base + i) (new.read (base + i)) else m) old

/-- The write footprint of the command in flight, as (base, count); empty where it writes nothing. -/
def State.abandonedRange (s : State) : Nat × Nat :=
  match s.inFlight with
  | some i => writeRange i
  | none => (0, 0)

/-- Reset while command `d` executes abandons it (R152). A command whose launch broke a duty of the host still stops the
model, by the same reason (log entry 12). -/
def abandon (d : Command) (s : State) : Result :=
  match runCommand d s with
  | .next t =>
    .next { s with
      mem := abandonedMemory s.draws s.abandonedRange.1 s.abandonedRange.2 s.mem t.mem
      draws := s.draws + 1 }.resetCore
  | .fault r => .fault r
  | .refused r => .refused r

/-- The host asserts `rst` (R150, R152). -/
def hostReset (s : State) : Result :=
  match s.captured with
  | some d => abandon d s
  | none => .next s.resetCore

/-- An idle core whose host presents `d`, with `rest` to do after it: the command is accepted where `cmd_ready` is high; while
`rst` is asserted it is not, and stays on the port (R50, R150). -/
def State.offer (s : State) (d : Command) (rest : List HostAct) : State :=
  if s.rst then s else { s with host := rest }.accept d

/-- The command a word stands for, accepted: the core is about to execute it. The host's next act, if any, waits for its
completion. -/
def State.acceptAlone (s : State) (d : Command) : State :=
  { s.accept d with host := .awaitDone :: s.host, rst := false }

end Sys2Proof.Machine
end

