-- ==== Sys2Proof/Machine/Step.lean ====
section
/-! DEFINITION. One step of the core and its host (spec 00_scope section 7; 70_reset_and_hazards R156). -/

namespace Sys2Proof.Machine

/-- One step. A host store, load, status read or reset takes place at once, also while a command is in flight (R21, R30,
R150). Otherwise it is the core's turn: it executes the command in flight to completion; with none in flight it accepts the
command presented, or the host's wait is over, or it idles with all state kept (R50, R146, R156). Which agent moves is a
DESIGN CHOICE (log entry 6), safe. -/
def step (s : State) : Host.Outcome State Fault Refusal :=
  match s.host with
  | .store a b :: rest => hostStore a b { s with host := rest }
  | .load a :: rest => hostLoad a { s with host := rest }
  | .readStatus sel :: rest => hostReadStatus sel { s with host := rest }
  | .assertReset :: rest => hostReset { s with host := rest }
  | .releaseReset :: rest => .next { s with host := rest, rst := false }
  | .present d :: rest => coreTurn s (s.offer d rest)
  | .awaitDone :: rest => coreTurn s { s with host := rest }
  | [] => coreTurn s s

/-- `s` with the word `w` accepted as a command, so that the next step executes it. The core fetches nothing from memory
(R16): its instruction comes from the command port, and this stands for the port's handshake (log entry 5). -/
def State.withFetchWord (s : State) (nbits w : Nat) : State := s.acceptAlone (commandOfNat nbits w)

end Sys2Proof.Machine
end

