-- ==== Sys2Proof/Machine/Lanes.lean ====
section
/-! DEFINITION. The lane-parallel form of a double-round (spec 42_permutation R101 to R103): an equivalent way to compute it,
used by no command. -/

namespace Sys2Proof.Machine

/-- A row of the matrix as a vector of four lanes (R101). -/
abbrev Row := Vector Word 4

/-- Row `r` of a block: lane `k` is word `4r + k` (R8, R101). -/
def rowOf (w : Block) (r : Fin 4) : Row := Vector.ofFn (fun k : Fin 4 => w[4 * r.val + k.val])

/-- The block whose rows are these (R101). -/
def ofRows (r0 r1 r2 r3 : Row) : Block := r0 ++ r1 ++ r2 ++ r3

/-- `VQR` applies `QR` lane by lane (R101). -/
def vqr (r0 r1 r2 r3 : Row) : Row × Row × Row × Row :=
  let q := fun k : Fin 4 => qr r0[k] r1[k] r2[k] r3[k]
  (Vector.ofFn (fun k => (q k).1), Vector.ofFn (fun k => (q k).2.1),
    Vector.ofFn (fun k => (q k).2.2.1), Vector.ofFn (fun k => (q k).2.2.2))

/-- `LROT(r, n)`: lane `k` of the result is lane `(k + n) mod 4` of `r` (R102). -/
def lrot (r : Row) (n : Nat) : Row :=
  Vector.ofFn (fun k : Fin 4 => r[(k.val + n) % 4]'(Nat.mod_lt _ (by decide)))

/-- `DOUBLEROUND_LANES` (R102): column round, diagonalize, diagonal round, restore. -/
def doubleRoundLanes (r0 r1 r2 r3 : Row) : Row × Row × Row × Row :=
  let (r0, r1, r2, r3) := vqr r0 r1 r2 r3
  let r1 := lrot r1 1
  let r2 := lrot r2 2
  let r3 := lrot r3 3
  let (r0, r1, r2, r3) := vqr r0 r1 r2 r3
  let r1 := lrot r1 3
  let r2 := lrot r2 2
  let r3 := lrot r3 1
  (r0, r1, r2, r3)

end Sys2Proof.Machine
end

