-- ==== Sys2Proof/Safety.lean ====
section
/-! DEFINITION. What claims are stated in terms of: the machine's invariant, the host's duties at a launch (spec
92_eei_decisions, host duties), and the set-up premise (70_reset_and_hazards R154). -/

namespace Sys2Proof.Machine

/-- The invariant of every reachable state: the memory is canonical; there are 1 to 16 contexts (R5); while a command is in
flight `DONE`, `ERR` and `CAUSE` are 0 (R18, R135); an error is the result of a completed command and has set `SERR` (R18);
nothing of the working state survives a command (R23); while `rst` is asserted no command is in flight (R150). -/
abbrev State.Inv (s : State) : Prop :=
  Memory.wf s.mem ∧ (1 ≤ s.nctx ∧ s.nctx ≤ 16) ∧
  (s.busy = true → s.status.done = false ∧ s.status.error = none) ∧
  (s.status.error ≠ none → s.status.done = true ∧ s.status.serr = true) ∧
  s.work = Work.cleared ∧
  (s.rst = true → s.busy = false)

/-- The host's duties for a command (host duties 1 and 3 of 92_eei_decisions): its read and write footprints are admitted
plain memory and do not wrap (R38, R43, R44), and a `PROCESS` has a supported overlap (R42). -/
abbrev State.DutiesMet (s : State) (i : Instr) : Prop :=
  s.PlainRange (readRange i).1 (readRange i).2 ∧ s.PlainRange (writeRange i).1 (writeRange i).2 ∧
  match i with
  | .process _ outAddr inAddr length => SupportedOverlap outAddr.toNat inAddr.toNat length.toNat
  | _ => True

/-- The host does nothing at once: its list is at its end, or it presents a command, or it waits. The next step is then the
core's turn. -/
def State.hostWaits (s : State) : Bool :=
  match s.host with
  | [] => true
  | .present _ :: _ => true
  | .awaitDone :: _ => true
  | .store _ _ :: _ => false
  | .load _ :: _ => false
  | .readStatus _ :: _ => false
  | .assertReset :: _ => false
  | .releaseReset :: _ => false

/-- The host asserts reset next. -/
def State.hostResets (s : State) : Bool :=
  match s.host with
  | .assertReset :: _ => true
  | _ => false

/-- The launch premise of a claim about encryption on context `c`: `KEYED[c]` = 1, `IVSET[c]` = 1, `SERR` = 0 (R154). -/
abbrev State.Prepared (s : State) (c : CtxNum) : Prop :=
  s.flagAt (fun x => x.keyed) c.toNat = true ∧ s.flagAt (fun x => x.ivset) c.toNat = true ∧ s.status.serr = false

end Sys2Proof.Machine
end

