-- ==== Sys2Proof/Certificates/Slice0/Obligations.lean ====
section
/-! DEFINITION. The statements about the model, for the provers: encoding, the port, each command, errors, status registers,
rules over all commands, the host and reset, the permutation core. -/

open Sys2Proof Sys2Proof.Machine

/-! ## Encoding -/

/-- Decoding the word of a well-formed instruction gives the instruction back, every operand at every value (R51, R52, R54,
R58, R60). -/
def Obligations.DecodeOfEncodeIsIdentity : Prop :=
  ∀ (en : Bool) (i : Instr), i.wf en = true → decode en (encode i) = .ok i

/-- A command that decodes is the word of what it decodes to, so no two words decode alike and no bit is dropped (R52, R55,
R60). -/
def Obligations.DecodedCommandReencodes : Prop :=
  ∀ (en : Bool) (d : Command) (i : Instr), decode en d = .ok i → encode i = d ∧ i.wf en = true

/-- A command is the named one when `d AND mask = match`, for the five rows of R53 (a snapshot row only when
`SNAPSHOT_EN` = 1), and one that matches no row is illegal. -/
def Obligations.DecodeIsMaskAndMatch : Prop :=
  (∀ (en : Bool) (d : Command) (i : Instr), i.wf en = true →
    ((∃ j, decode en d = .ok j ∧ j.row = i.row) ↔ d &&& i.row.mask = i.row.pattern)) ∧
  (∀ (en : Bool) (d : Command),
    (∃ r, decode en d = .error r) ↔ ∀ i : Instr, i.wf en = true → d &&& i.row.mask ≠ i.row.pattern)

/-- Exactly the commands R55 lists are illegal, and an illegal command, once captured, completes with `InvalidArgument(4)`
and changes nothing else (R55). -/
def Obligations.IllegalCommandsFailWithCauseFour : Prop :=
  (∀ (en : Bool) (d : Command),
    (∃ r, decode en d = .error r) ↔
      (opcodeOf d = 0x00 ∨ 0x06 ≤ (opcodeOf d).toNat) ∨
      ((opcodeOf d = 0x04 ∨ opcodeOf d = 0x05) ∧ en = false) ∨
      rsv0Of d ≠ 0 ∨
      (opcodeOf d = 0x01 ∧ operandC d ≠ 0) ∨
      ((opcodeOf d = 0x04 ∨ opcodeOf d = 0x05) ∧ (operandB d ≠ 0 ∨ operandC d ≠ 0))) ∧
  (∀ (s : State) (d : Command), s.hostWaits = true → s.captured = some d →
    (∃ r, decode s.cfg.snapshotEn d = .error r) →
    step s = .next { s with
      captured := none, status := { done := true, error := some .illegalCmd, serr := true } })

/-- Words written out from the encoding vectors of 95_test_vectors section 8 decode to the instructions given there. -/
def Obligations.SpecEncodingVectorsDecode : Prop :=
  decode true 0x00000000_00000020_00001000_00000001 = .ok (.setkey 0 0x1000 32) ∧
  decode true 0xffffffff_0000000c_00001040_00000002 = .ok (.setiv 0 0x1040 12 0xffffffff) ∧
  decode true 0x00000072_00002000_00003000_00000003 = .ok (.process 0 0x3000 0x2000 114) ∧
  decode true 0x00000000_00000000_00000000_0000ff03 = .ok (.process 255 0 0 0) ∧
  decode true 0x00000000_00000000_00004000_00000004 = .ok (.savectx 0 0x4000) ∧
  decode true 0x00000000_00000000_00004000_00000005 = .ok (.loadctx 0 0x4000) ∧
  decode true 0x00000000_00000000_00000000_00010003 = .error .reserved0 ∧
  decode true 0x00000005_00000020_00000000_00000001 = .error .reservedOperand ∧
  decode true 0x00000000_00000000_00000000_00000000 = .error .opcode

/-! ## The command port -/

/-- A step runs the decoded instruction: with a legal command captured and the host not acting at once, the step is `exec` of
it at that state, with nothing around it (R60, R156; the host's turn is log entry 6). -/
def Obligations.StepRunsCapturedCommand : Prop :=
  ∀ (s : State) (d : Command) (i : Instr),
    s.hostWaits = true → s.captured = some d → decode s.cfg.snapshotEn d = .ok i → step s = exec i s

/-- With `cmd_ready` high, acceptance captures all 128 bits of the command presented and changes nothing else but `STATUS` (R46,
R50, R135). -/
def Obligations.AcceptanceCapturesCommand : Prop :=
  ∀ (s : State) (d : Command) (rest : List HostAct), s.host = .present d :: rest → s.cmdReady = true →
    step s = .next { s with
      host := rest, captured := some d, status := { done := false, error := none, serr := s.status.serr } }

/-- A command that ends with `OK` sets `BUSY` = 0, `DONE` = 1, `ERR` = 0, `CAUSE` = 0 and leaves `SERR`; acceptance of any
command sets `BUSY` = 1, `DONE` = 0, `ERR` = 0, `CAUSE` = 0 and leaves `SERR` (R135). -/
def Obligations.CompletionAndAcceptanceSetStatus : Prop :=
  (∀ (s t : State) (i : Instr), s.checkCommand i = none → exec i s = .next t →
    t.busy = false ∧ t.status = { done := true, error := none, serr := s.status.serr }) ∧
  (∀ (s : State) (d : Command) (rest : List HostAct), s.host = .present d :: rest → s.cmdReady = true →
    ∃ t, step s = .next t ∧ t.busy = true ∧ t.status = { done := false, error := none, serr := s.status.serr })

/-- While a command executes, a second one presented is not accepted and waits on the port; the step executes the first
(R156). -/
def Obligations.SecondCommandWaitsOnPort : Prop :=
  ∀ (s t : State) (c d : Command) (rest : List HostAct), s.captured = some c → s.host = .present d :: rest →
    step s = .next t → t.host = .present d :: rest ∧ t.captured = none ∧ runCommand c s = .next t

/-- An idle core with nothing presented keeps all its state (R146). -/
def Obligations.IdleCoreKeepsState : Prop :=
  ∀ s : State, s.host = [] → s.captured = none → step s = .next s

/-! ## The commands -/

/-- `SETKEY` with a legal length completes: words 0 to 3 are the constant set the length selects, 4 to 7 the first sixteen key
bytes, 8 to 11 the next sixteen or the first sixteen again, all little-endian; words 12 to 15 and `IVSET` are kept, `KEYED` is
set; nothing else changes but the completion (R80, R81, R82, R86). -/
def Obligations.SetkeyLoadsKeyAndConstants : Prop :=
  ∀ (s : State) (ctx : CtxNum) (ka kl : Word) (c : Context),
    s.ctxs[ctx.toNat]? = some c → (kl = 16 ∨ kl = 32) → s.PlainRange ka.toNat kl.toNat →
    ∃ x : Block,
      exec (.setkey ctx ka kl) s = .next { s with
        ctxs := s.ctxs.set ctx.toNat { x := x, keyed := true, ivset := c.ivset }
        captured := none
        status := { done := true, error := none, serr := s.status.serr } } ∧
      (∀ i : Fin 4, x[i.val] = if kl = 32 then s.cfg.const32[i.val] else s.cfg.const16[i.val]) ∧
      (∀ i : Fin 4, x[4 + i.val] =
        le32 (s.mem.read (ka.toNat + 4 * i.val)) (s.mem.read (ka.toNat + 4 * i.val + 1))
          (s.mem.read (ka.toNat + 4 * i.val + 2)) (s.mem.read (ka.toNat + 4 * i.val + 3))) ∧
      (kl = 32 → ∀ i : Fin 4, x[8 + i.val] =
        le32 (s.mem.read (ka.toNat + 16 + 4 * i.val)) (s.mem.read (ka.toNat + 16 + 4 * i.val + 1))
          (s.mem.read (ka.toNat + 16 + 4 * i.val + 2)) (s.mem.read (ka.toNat + 16 + 4 * i.val + 3))) ∧
      (kl = 16 → ∀ i : Fin 4, x[8 + i.val] = x[4 + i.val]) ∧
      (∀ i : Fin 4, x[12 + i.val] = c.x[12 + i.val])

/-- `SETIV` with a nonce length of 12 completes: word 12 is `COUNTER` unchanged, 13 to 15 the nonce bytes little-endian; words
0 to 11 and `KEYED` are kept, `IVSET` is set; nothing else changes but the completion (R34, R84, R86). -/
def Obligations.SetivLoadsCounterAndNonce : Prop :=
  ∀ (s : State) (ctx : CtxNum) (na counter : Word) (c : Context),
    s.ctxs[ctx.toNat]? = some c → s.PlainRange na.toNat 12 →
    ∃ x : Block,
      exec (.setiv ctx na 12 counter) s = .next { s with
        ctxs := s.ctxs.set ctx.toNat { x := x, keyed := c.keyed, ivset := true }
        captured := none
        status := { done := true, error := none, serr := s.status.serr } } ∧
      (∀ i : Fin 12, x[i.val] = c.x[i.val]) ∧
      x[12] = counter ∧
      (∀ i : Fin 3, x[13 + i.val] =
        le32 (s.mem.read (na.toNat + 4 * i.val)) (s.mem.read (na.toNat + 4 * i.val + 1))
          (s.mem.read (na.toNat + 4 * i.val + 2)) (s.mem.read (na.toNat + 4 * i.val + 3)))

/-- After `SETKEY` and `SETIV` have both completed, in either order, the context holds the initial state of R87 and both
flags are 1. -/
def Obligations.SchedulerBuildsInitialState : Prop :=
  ∀ (s : State) (ctx : CtxNum) (ka kl na counter : Word) (c : Context),
    s.ctxs[ctx.toNat]? = some c → (kl = 16 ∨ kl = 32) → s.PlainRange ka.toNat kl.toNat → s.PlainRange na.toNat 12 →
    ∃ (t u v : State) (x : Block),
      exec (.setkey ctx ka kl) s = .next t ∧ exec (.setiv ctx na 12 counter) t = .next v ∧
      exec (.setiv ctx na 12 counter) s = .next u ∧ exec (.setkey ctx ka kl) u = .next v ∧
      v.ctxs[ctx.toNat]? = some { x := x, keyed := true, ivset := true } ∧
      (∀ i : Fin 4, x[i.val] = if kl = 32 then s.cfg.const32[i.val] else s.cfg.const16[i.val]) ∧
      (kl = 32 → ∀ i : Fin 8, x[4 + i.val] =
        le32 (s.mem.read (ka.toNat + 4 * i.val)) (s.mem.read (ka.toNat + 4 * i.val + 1))
          (s.mem.read (ka.toNat + 4 * i.val + 2)) (s.mem.read (ka.toNat + 4 * i.val + 3))) ∧
      (kl = 16 → ∀ i : Fin 4, x[4 + i.val] =
        le32 (s.mem.read (ka.toNat + 4 * i.val)) (s.mem.read (ka.toNat + 4 * i.val + 1))
          (s.mem.read (ka.toNat + 4 * i.val + 2)) (s.mem.read (ka.toNat + 4 * i.val + 3)) ∧
        x[8 + i.val] = x[4 + i.val]) ∧
      x[12] = counter ∧
      (∀ i : Fin 3, x[13 + i.val] =
        le32 (s.mem.read (na.toNat + 4 * i.val)) (s.mem.read (na.toNat + 4 * i.val + 1))
          (s.mem.read (na.toNat + 4 * i.val + 2)) (s.mem.read (na.toNat + 4 * i.val + 3)))

/-- The closed form of `PROCESS` (R117, R115): it completes; output byte `j` is input byte `j` (as it was before the command)
XOR byte `j mod 64` of the keystream block of counter `s[12] + j div 64`; word 12 advances by `ceil(L / 64)` modulo 2^32 and
no other word changes; every byte outside the output range reads as before; nothing else changes but the completion. (What
the hidden working state holds after it is not stated: R23, R24. The frame is that of R37, the status that of R135.) -/
def Obligations.ProcessClosedForm : Prop :=
  ∀ (s : State) (ctx : CtxNum) (outA inA len : Word) (c : Context),
    Memory.wf s.mem → s.ctxs[ctx.toNat]? = some c →
    s.PlainRange inA.toNat len.toNat → s.PlainRange outA.toNat len.toNat →
    SupportedOverlap outA.toNat inA.toNat len.toNat →
    ∃ (x : Block) (m : Memory) (w : Work),
      exec (.process ctx outA inA len) s = .next { s with
        ctxs := s.ctxs.set ctx.toNat { c with x := x }
        mem := m
        work := w
        captured := none
        status := { done := true, error := none, serr := s.status.serr } } ∧
      x[12] = c.x[12] + BitVec.ofNat 32 ((len.toNat + 63) / 64) ∧
      (∀ i : Fin 16, i ≠ 12 → x[i] = c.x[i]) ∧
      (∀ j, j < len.toNat → m.read (outA.toNat + j) = xor8 (s.mem.read (inA.toNat + j))
        ((serialize (block (c.x.set 12 (add32 c.x[12] (BitVec.ofNat 32 (j / 64))))))[j % 64]'
          (Nat.mod_lt _ (by decide)))) ∧
      (∀ a, ¬ InRange (outA.toNat, len.toNat) a → m.read a = s.mem.read a)

/-- `PROCESS` of `LENGTH` = 0 on a context the core has completes with `OK` and changes no word, no flag and no byte of
memory; on an absent context it fails with cause 1 (R114). (What the hidden working state holds after it is not stated: R23,
R24.) -/
def Obligations.ProcessOfZeroLengthIsNoOp : Prop :=
  ∀ (s : State) (ctx : CtxNum) (outA inA : Word),
    (ctx.toNat < s.nctx →
      ∃ w : Work, exec (.process ctx outA inA 0) s = .next { s with
        work := w
        captured := none
        status := { done := true, error := none, serr := s.status.serr } }) ∧
    (s.nctx ≤ ctx.toNat →
      exec (.process ctx outA inA 0) s = .next { s with
        captured := none, status := { done := true, error := some .ctxAbsent, serr := true } })

/-- On a context of zero words (as reset leaves it) a `PROCESS` of up to one block copies its input to its output and counts
one block (R91, R160; beyond the first block the counter word is no longer zero, log entry 18). -/
def Obligations.ProcessOnZeroWordsCopies : Prop :=
  ∀ (s : State) (ctx : CtxNum) (outA inA len : Word) (c : Context),
    Memory.wf s.mem → s.ctxs[ctx.toNat]? = some c → c.x = Vector.replicate 16 0 →
    0 < len.toNat → len.toNat ≤ 64 →
    s.PlainRange inA.toNat len.toNat → s.PlainRange outA.toNat len.toNat →
    SupportedOverlap outA.toNat inA.toNat len.toNat →
    ∃ t, exec (.process ctx outA inA len) s = .next t ∧
      t.ctxs[ctx.toNat]? = some { c with x := c.x.set 12 1 } ∧
      (∀ j, j < len.toNat → t.mem.read (outA.toNat + j) = s.mem.read (inA.toNat + j))

/-- Two `PROCESS` commands on consecutive buffers, the first of a length that is a multiple of 64, leave the very state one
command of the whole length leaves: words, flags, memory and status (R116, R117, R161). That the hidden working state, part of
that state, is the same too is the model's choice (log entry 15). -/
def Obligations.ProcessSplitsAtBlockBoundaries : Prop :=
  ∀ (s : State) (ctx : CtxNum) (outA inA l1 l2 : Word),
    Memory.wf s.mem → l1.toNat % 64 = 0 → l1.toNat + l2.toNat < 2 ^ 32 → ctx.toNat < s.nctx →
    s.DutiesMet (.process ctx outA inA (l1 + l2)) →
    ∃ t u, exec (.process ctx outA inA (l1 + l2)) s = .next t ∧
      exec (.process ctx outA inA l1) s = .next u ∧
      exec (.process ctx (outA + l1) (inA + l1) l2) u = .next t

/-- Encryption and decryption are the same operation: a second `PROCESS` of the same length, on a context holding the words
the first one's had before it ran, with the first one's output as its input, gives back the first one's input (R118). -/
def Obligations.ProcessIsAnInvolution : Prop :=
  ∀ (s u : State) (ctx ctx' : CtxNum) (outA inA back len : Word) (c c' : Context),
    Memory.wf s.mem → Memory.wf u.mem →
    s.ctxs[ctx.toNat]? = some c → u.ctxs[ctx'.toNat]? = some c' → c'.x = c.x →
    s.DutiesMet (.process ctx outA inA len) → u.DutiesMet (.process ctx' back outA len) →
    ∃ t v, exec (.process ctx outA inA len) s = .next t ∧ exec (.process ctx' back outA len) u = .next v ∧
      ((∀ j, j < len.toNat → u.mem.read (outA.toNat + j) = t.mem.read (outA.toNat + j)) →
        ∀ j, j < len.toNat → v.mem.read (back.toNat + j) = s.mem.read (inA.toNat + j))

/-- `SAVECTX` completes: it writes the 64-byte image, `BYTES_LE(x[i])` at `ADDR + 4*i`; every other byte reads as before and
nothing else changes but the completion (R125, R127). -/
def Obligations.SavectxWritesImage : Prop :=
  ∀ (s : State) (ctx : CtxNum) (addr : Word) (c : Context),
    Memory.wf s.mem → s.cfg.snapshotEn = true → s.ctxs[ctx.toNat]? = some c → s.PlainRange addr.toNat 64 →
    ∃ m : Memory,
      exec (.savectx ctx addr) s = .next { s with
        mem := m
        captured := none
        status := { done := true, error := none, serr := s.status.serr } } ∧
      (∀ (i : Fin 16) (j : Fin 4), m.read (addr.toNat + 4 * i.val + j.val) = (bytesLE c.x[i])[j]) ∧
      (∀ a, ¬ InRange (addr.toNat, 64) a → m.read a = s.mem.read a)

/-- `LOADCTX` completes: word `i` is the little-endian word at `ADDR + 4*i`, unchecked, both flags are set, and nothing else
changes but the completion (R126). -/
def Obligations.LoadctxReadsImage : Prop :=
  ∀ (s : State) (ctx : CtxNum) (addr : Word),
    s.cfg.snapshotEn = true → ctx.toNat < s.nctx → s.PlainRange addr.toNat 64 →
    ∃ x : Block,
      exec (.loadctx ctx addr) s = .next { s with
        ctxs := s.ctxs.set ctx.toNat { x := x, keyed := true, ivset := true }
        captured := none
        status := { done := true, error := none, serr := s.status.serr } } ∧
      (∀ i : Fin 16, x[i] =
        le32 (s.mem.read (addr.toNat + 4 * i.val)) (s.mem.read (addr.toNat + 4 * i.val + 1))
          (s.mem.read (addr.toNat + 4 * i.val + 2)) (s.mem.read (addr.toNat + 4 * i.val + 3)))

/-- The snapshot laws (R128): `SAVECTX c, A` and later `LOADCTX c', A`, the 64 bytes unchanged in between, make the words of
`c'` those of `c` at the save, whatever the two cores (`u` may be another core's state); `LOADCTX` then `SAVECTX` to another
address copies the 64 bytes. -/
def Obligations.SnapshotRestoresWords : Prop :=
  (∀ (s u : State) (ctx ctx' : CtxNum) (addr : Word) (c : Context),
    Memory.wf s.mem → s.cfg.snapshotEn = true → u.cfg.snapshotEn = true →
    s.ctxs[ctx.toNat]? = some c → ctx'.toNat < u.nctx →
    s.PlainRange addr.toNat 64 → u.PlainRange addr.toNat 64 →
    ∃ t v, exec (.savectx ctx addr) s = .next t ∧ exec (.loadctx ctx' addr) u = .next v ∧
      ((∀ i, i < 64 → u.mem.read (addr.toNat + i) = t.mem.read (addr.toNat + i)) →
        ∃ c', v.ctxs[ctx'.toNat]? = some c' ∧ c'.x = c.x)) ∧
  (∀ (s : State) (ctx : CtxNum) (a b : Word),
    Memory.wf s.mem → s.cfg.snapshotEn = true → ctx.toNat < s.nctx →
    s.PlainRange a.toNat 64 → s.PlainRange b.toNat 64 →
    ∃ t u, exec (.loadctx ctx a) s = .next t ∧ exec (.savectx ctx b) t = .next u ∧
      ∀ i, i < 64 → u.mem.read (b.toNat + i) = s.mem.read (a.toNat + i))

/-! ## Errors -/

/-- A command that ends with `InvalidArgument(k)` sets at completion `BUSY` = 0, `DONE` = 1, `ERR` = 1, `SERR` = 1, `CAUSE` =
`k`, and changes nothing else: no word, no flag, no byte of memory (R134). -/
def Obligations.FailingCommandChangesOnlyStatus : Prop :=
  ∀ (s : State) (i : Instr) (k : Cause), s.checkCommand i = some k →
    exec i s = .next { s with captured := none, status := { done := true, error := some k, serr := true } }

/-- The checks in the order of R133, the first that fails giving the cause: the encoding, the context, the length. -/
def Obligations.ChecksReportTheFirstFailure : Prop :=
  ∀ (s : State) (d : Command) (i : Instr),
    ((∃ r, decode s.cfg.snapshotEn d = .error r) →
      runCommand d s = .next { s with
        captured := none, status := { done := true, error := some .illegalCmd, serr := true } }) ∧
    (decode s.cfg.snapshotEn d = .ok i → s.nctx ≤ i.ctx.toNat →
      runCommand d s = .next { s with
        captured := none, status := { done := true, error := some .ctxAbsent, serr := true } }) ∧
    (∀ c a n, decode s.cfg.snapshotEn d = .ok (.setkey c a n) → c.toNat < s.nctx → ¬ (n = 16 ∨ n = 32) →
      runCommand d s = .next { s with
        captured := none, status := { done := true, error := some .keyLen, serr := true } }) ∧
    (∀ c a n k, decode s.cfg.snapshotEn d = .ok (.setiv c a n k) → c.toNat < s.nctx → n ≠ 12 →
      runCommand d s = .next { s with
        captured := none, status := { done := true, error := some .nonceLen, serr := true } }) ∧
    (decode s.cfg.snapshotEn d = .ok i → i.ctx.toNat < s.nctx →
      (∀ c a n, i = .setkey c a n → n = 16 ∨ n = 32) → (∀ c a n k, i = .setiv c a n k → n = 12) →
      ∀ t, runCommand d s = .next t → t.status.error = none)

/-- The snapshot commands of a core with `SNAPSHOT_EN` = 0 are illegal, captured or executed: cause 4 before cause 1 (R125,
R126, R129, R133). -/
def Obligations.SnapshotDisabledFailsWithCauseFour : Prop :=
  ∀ (s : State) (ctx : CtxNum) (addr : Word), s.cfg.snapshotEn = false →
    ∀ i, (i = .savectx ctx addr ∨ i = .loadctx ctx addr) →
      (∃ r, decode s.cfg.snapshotEn (encode i) = .error r) ∧
      exec i s = .next { s with
        captured := none, status := { done := true, error := some .illegalCmd, serr := true } }

/-! ## The status registers -/

/-- The bits of `STATUS` (R18), and the values R131 and R18 give for the whole register: while a command executes, after
`OK`, after each cause. -/
def Obligations.StatusRegisterLayout : Prop :=
  ∀ s : State,
    s.statusWord.getLsbD 0 = s.busy ∧ s.statusWord.getLsbD 1 = s.status.done ∧
    s.statusWord.getLsbD 2 = s.status.error.isSome ∧ s.statusWord.getLsbD 3 = s.status.serr ∧
    (s.status.error = none → s.statusWord.extractLsb' 4 3 = 0) ∧
    (∀ k, s.status.error = some k → s.statusWord.extractLsb' 4 3 = k.code) ∧
    s.statusWord.extractLsb' 7 25 = 0 ∧
    (s.completeErr .ctxAbsent).statusWord = 0x1e ∧ (s.completeErr .keyLen).statusWord = 0x2e ∧
    (s.completeErr .nonceLen).statusWord = 0x3e ∧ (s.completeErr .illegalCmd).statusWord = 0x4e ∧
    (s.status.serr = false → s.completeOk.statusWord = 0x2 ∧ ∀ d, (s.accept d).statusWord = 0x1) ∧
    (s.status.serr = true → s.completeOk.statusWord = 0xa ∧ ∀ d, (s.accept d).statusWord = 0x9)

/-- The fields of `CONFIG`, its value with the default parameters, and that it is constant: no step changes it (R19). -/
def Obligations.ConfigRegisterIsConstant : Prop :=
  (∀ s : State, s.nctx ≤ 16 →
    (s.configWord.extractLsb' 0 8).toNat = s.nctx ∧ s.configWord.getLsbD 8 = s.cfg.snapshotEn ∧
    s.configWord.extractLsb' 9 7 = 0 ∧ s.configWord.extractLsb' 16 8 = 0x14 ∧ s.configWord.extractLsb' 24 8 = 0) ∧
  State.reset.configWord = 0x00140101 ∧
  (∀ s t : State, step s = .next t → t.configWord = s.configWord ∧ t.nctx = s.nctx ∧ t.cfg = s.cfg)

/-- Bit `c` of `CTXFLAGS` is `KEYED[c]`, bit `16 + c` is `IVSET[c]`, and the bits of a context number `c >= NCTX` are 0
(R20). -/
def Obligations.CtxFlagsRegisterBits : Prop :=
  ∀ (s : State) (c : Nat), c < 16 →
    (∀ x, s.ctxs[c]? = some x →
      s.ctxFlagsWord.getLsbD c = x.keyed ∧ s.ctxFlagsWord.getLsbD (16 + c) = x.ivset) ∧
    (s.nctx ≤ c → s.ctxFlagsWord.getLsbD c = false ∧ s.ctxFlagsWord.getLsbD (16 + c) = false)

/-- A status register read returns the register's current value, number 3 reading 0, at any time, also while a command
executes, and has no side effect (R21). -/
def Obligations.StatusReadHasNoSideEffect : Prop :=
  ∀ (s : State) (sel : BitVec 2) (rest : List HostAct), s.host = .readStatus sel :: rest →
    ∃ v : Word, step s = .next { s with host := rest, srData := v } ∧
      (sel = 0 → v = s.statusWord) ∧ (sel = 1 → v = s.configWord) ∧ (sel = 2 → v = s.ctxFlagsWord) ∧ (sel = 3 → v = 0)

/-! ## Rules over every command and every step -/

/-- Every step keeps the invariant: canonical memory, 1 to 16 contexts, a coherent `STATUS`, no surviving working state, no
command in flight while `rst` is asserted (R5, R10, R18, R23, R24, R150; that the working state reads cleared between commands is the model's choice, log entry 15). -/
def Obligations.StepKeepsInvariant : Prop := ∀ s t : State, s.Inv → step s = .next t → t.Inv

/-- The invariant holds after reset, for every number of contexts from 1 to 16 and every value of the parameters (R5, R26). -/
def Obligations.ResetMeetsInvariant : Prop :=
  State.reset.Inv ∧ ∀ (n : Nat) (cfg : Config), 1 ≤ n → n ≤ 16 → (State.resetWith n cfg).Inv

/-- A command changes no context but the one it names (R15, R144). -/
def Obligations.OtherContextsUntouched : Prop :=
  ∀ (s t : State) (i : Instr), exec i s = .next t →
    t.ctxs.length = s.ctxs.length ∧ ∀ k, k ≠ i.ctx.toNat → t.ctxs[k]? = s.ctxs[k]?

/-- The table of R15: but for reset, a step changes words 0 to 11 of a context only by a `SETKEY` or `LOADCTX` that names it,
word 12 only by a `SETIV`, `PROCESS` or `LOADCTX`, words 13 to 15 only by a `SETIV` or `LOADCTX` (R11, R12, R15, R146). -/
def Obligations.WordsWrittenOnlyByTheirCommands : Prop :=
  ∀ (s t : State) (k : Nat) (c c' : Context) (j : Fin 16),
    step s = .next t → s.hostResets = false → s.ctxs[k]? = some c → t.ctxs[k]? = some c' → c'.x[j] ≠ c.x[j] →
    ∃ d i, s.captured = some d ∧ decode s.cfg.snapshotEn d = .ok i ∧ i.ctx.toNat = k ∧
      match i with
      | .setkey _ _ _ => j.val < 12
      | .setiv _ _ _ _ => 12 ≤ j.val
      | .process _ _ _ _ => j.val = 12
      | .savectx _ _ => False
      | .loadctx _ _ => True

/-- `KEYED[c]` becomes 1 only by a `SETKEY` or a `LOADCTX` on `c`, `IVSET[c]` only by a `SETIV` or a `LOADCTX` on `c`, and
nothing but reset clears either (R17). -/
def Obligations.FlagsSetByCommandsClearedByReset : Prop :=
  ∀ (s t : State) (k : Nat), step s = .next t → s.hostResets = false →
    (s.flagAt (fun c => c.keyed) k = true → t.flagAt (fun c => c.keyed) k = true) ∧
    (s.flagAt (fun c => c.ivset) k = true → t.flagAt (fun c => c.ivset) k = true) ∧
    (s.flagAt (fun c => c.keyed) k = false → t.flagAt (fun c => c.keyed) k = true →
      ∃ d i, s.captured = some d ∧ decode s.cfg.snapshotEn d = .ok i ∧ i.ctx.toNat = k ∧
        ((∃ a n, i = .setkey i.ctx a n) ∨ (∃ a, i = .loadctx i.ctx a))) ∧
    (s.flagAt (fun c => c.ivset) k = false → t.flagAt (fun c => c.ivset) k = true →
      ∃ d i, s.captured = some d ∧ decode s.cfg.snapshotEn d = .ok i ∧ i.ctx.toNat = k ∧
        ((∃ a n v, i = .setiv i.ctx a n v) ∨ (∃ a, i = .loadctx i.ctx a)))

/-- `SERR` stays 1 until reset (R18, R139). -/
def Obligations.StickyErrorStaysUntilReset : Prop :=
  ∀ s t : State, step s = .next t → s.hostResets = false → s.status.serr = true → t.status.serr = true

/-- A command writes no byte outside its write footprint, and a failing command writes none (R32, R37, R134). -/
def Obligations.WritesStayInFootprint : Prop :=
  ∀ (s t : State) (i : Instr), exec i s = .next t →
    (∀ a, ¬ InRange (writeRange i) a → t.mem.read a = s.mem.read a) ∧
    (s.checkCommand i ≠ none → t.mem = s.mem)

/-- Everything a command does depends on the memory only through the bytes of its read footprint: in a memory that agrees
there, the same command completes with the same contexts, the same status and the same bytes written (R36, R37, R145). -/
def Obligations.ResultDependsOnlyOnReadFootprint : Prop :=
  ∀ (s : State) (m : Memory) (i : Instr),
    Memory.wf s.mem → Memory.wf m → s.checkCommand i = none → s.DutiesMet i →
    (∀ a, InRange (readRange i) a → m.read a = s.mem.read a) →
    ∃ t u, exec i s = .next t ∧ exec i { s with mem := m } = .next u ∧
      u.ctxs = t.ctxs ∧ u.status = t.status ∧
      (∀ a, InRange (writeRange i) a → u.mem.read a = t.mem.read a)

/-- Every accepted command completes: with the host waiting, a command that fails its checks, or one whose launch meets the
host's duties, completes in the next step (R130, R136, R165). -/
def Obligations.AcceptedCommandCompletes : Prop :=
  ∀ (s : State) (d : Command), s.hostWaits = true → s.captured = some d →
    (∀ i, decode s.cfg.snapshotEn d = .ok i → s.checkCommand i = none → s.DutiesMet i) →
    ∃ t, step s = .next t ∧ t.busy = false ∧ t.status.done = true

/-- What stops a command that passes its checks, and nothing else does: a range past the top of the address space is refused
(R43), a device location is refused (R38), a partial overlap is refused (R42), and an address not admitted leaves the core
stuck (R44). Where a launch breaks several of these duties the spec gives no order: a wrap before anything else, a device before
an address not admitted, and the read range before the write range are the model's choice (log entry 11). -/
def Obligations.StopsOnlyOnBrokenDuties : Prop :=
  (∀ (s : State) (i : Instr), s.checkCommand i = none →
    ((∃ t, exec i s = .next t) ↔ s.DutiesMet i)) ∧
  (∀ (s : State) (i : Instr), s.checkCommand i = none → memTop < (readRange i).1 + (readRange i).2 →
    exec i s = .refused .rangeWraps) ∧
  (∀ (s : State) (i : Instr), s.checkCommand i = none → s.PlainRange (readRange i).1 (readRange i).2 →
    memTop < (writeRange i).1 + (writeRange i).2 → exec i s = .refused .rangeWraps) ∧
  (∀ (s : State) (i : Instr), s.checkCommand i = none → (readRange i).1 + (readRange i).2 ≤ memTop →
    (∃ j, j < (readRange i).2 ∧ s.kindAt ((readRange i).1 + j) = some .device) →
    exec i s = .refused .deviceMemory) ∧
  (∀ (s : State) (i : Instr), s.checkCommand i = none → (readRange i).1 + (readRange i).2 ≤ memTop →
    (∃ j, j < (readRange i).2 ∧ s.kindAt ((readRange i).1 + j) = none) →
    (∀ j, j < (readRange i).2 → s.kindAt ((readRange i).1 + j) ≠ some .device) →
    exec i s = .fault .notAdmitted) ∧
  (∀ (s : State) (i : Instr), s.checkCommand i = none → s.PlainRange (readRange i).1 (readRange i).2 →
    (writeRange i).1 + (writeRange i).2 ≤ memTop →
    (∃ j, j < (writeRange i).2 ∧ s.kindAt ((writeRange i).1 + j) = some .device) →
    exec i s = .refused .deviceMemory) ∧
  (∀ (s : State) (i : Instr), s.checkCommand i = none → s.PlainRange (readRange i).1 (readRange i).2 →
    (writeRange i).1 + (writeRange i).2 ≤ memTop →
    (∃ j, j < (writeRange i).2 ∧ s.kindAt ((writeRange i).1 + j) = none) →
    (∀ j, j < (writeRange i).2 → s.kindAt ((writeRange i).1 + j) ≠ some .device) →
    exec i s = .fault .notAdmitted) ∧
  (∀ (s : State) (ctx : CtxNum) (outA inA len : Word), ctx.toNat < s.nctx →
    s.PlainRange inA.toNat len.toNat → s.PlainRange outA.toNat len.toNat →
    ¬ SupportedOverlap outA.toNat inA.toNat len.toNat →
    exec (.process ctx outA inA len) s = .refused .partialOverlap)

/-! ## The host and reset -/

/-- While a command is in flight the host must not write a byte of its read or write footprint nor read a byte of its write
footprint: the model refuses it (R41). That it does so as a race also where the byte lies on a device or at an address not
admitted, the race being looked at before the address, is the model's choice (log entry 8). -/
def Obligations.HostRaceIsRefused : Prop :=
  ∀ (s : State) (d : Command) (i : Instr) (a : Word) (rest : List HostAct),
    s.captured = some d → decode s.cfg.snapshotEn d = .ok i → s.checkCommand i = none →
    (∀ b, s.host = .store a b :: rest →
      (InRange (readRange i) a.toNat ∨ InRange (writeRange i) a.toNat) → step s = .refused .bufferRace) ∧
    (s.host = .load a :: rest → InRange (writeRange i) a.toNat → step s = .refused .bufferRace)

/-- A host store to plain memory writes that byte and no other, and changes nothing else, with no command in flight and also
with one whose read and write footprint it stays outside of, an illegal or failing command having none (R30, R32, R37, R41; that
the host acts at once is log entry 6). -/
def Obligations.HostStoreWritesOneByte : Prop :=
  ∀ (s : State) (a : Word) (b : Byte) (rest : List HostAct),
    Memory.wf s.mem → s.host = .store a b :: rest → s.kindAt a.toNat = some .plain →
    (∀ d i, s.captured = some d → decode s.cfg.snapshotEn d = .ok i → s.checkCommand i = none →
      ¬ InRange (readRange i) a.toNat ∧ ¬ InRange (writeRange i) a.toNat) →
    ∃ m : Memory, step s = .next { s with host := rest, mem := m } ∧ m.read a.toNat = b ∧
      (∀ x, x ≠ a.toNat → m.read x = s.mem.read x)

/-- A host load from plain memory returns the byte there and changes nothing else, with no command in flight and also with one
whose write footprint it stays outside of, inside its read footprint too (R30, R31, R37, R41; that the host acts at once is log
entry 6, the field that holds the byte is log entry 14). -/
def Obligations.HostLoadReturnsByte : Prop :=
  ∀ (s : State) (a : Word) (rest : List HostAct),
    s.host = .load a :: rest → s.kindAt a.toNat = some .plain →
    (∀ d i, s.captured = some d → decode s.cfg.snapshotEn d = .ok i → s.checkCommand i = none →
      ¬ InRange (writeRange i) a.toNat) →
    step s = .next { s with host := rest, loadData := s.mem.read a.toNat }

/-- `rst` asserted on an idle core and then released: every word of every context and every flag is 0, `STATUS` and `CTXFLAGS`
read 0, the working state is cleared, `CONFIG` is its constant, the memory is not touched, and the core is idle, ready to accept
a command (R26, R150, R153). -/
def Obligations.ResetClearsIdleCore : Prop :=
  ∀ (s : State) (rest : List HostAct), s.captured = none → s.host = .assertReset :: .releaseReset :: rest →
    ∃ r t, step s = .next r ∧ step r = .next t ∧ t.mem = s.mem ∧ t.nctx = s.nctx ∧ t.configWord = s.configWord ∧
      t.statusWord = 0 ∧ t.ctxFlagsWord = 0 ∧ t.work = Work.cleared ∧ t.cmdReady = true ∧ t.host = rest ∧
      ∀ k, k < s.nctx → ∃ c, t.ctxs[k]? = some c ∧ c.keyed = false ∧ c.ivset = false ∧ ∀ i : Fin 16, c.x[i] = 0

/-- While `rst` is asserted `cmd_ready` is low and the command presented is not accepted but stays on the port; releasing it
changes nothing else (R150). That the core is cleared when `rst` is asserted, so that releasing it has nothing left to do, and
that a host which presents while it holds `rst` waits with its state as it is, are the model's reading (log entry 17). -/
def Obligations.NoCommandAcceptedWhileReset : Prop :=
  (∀ (s : State) (d : Command) (rest : List HostAct),
    s.rst = true → s.captured = none → s.host = .present d :: rest → s.cmdReady = false ∧ step s = .next s) ∧
  (∀ (s : State) (rest : List HostAct), s.host = .releaseReset :: rest →
    step s = .next { s with host := rest, rst := false })

/-- Reset while a command executes abandons it: `DONE` is not set, the contexts are cleared, every byte outside the command's
write footprint reads as before, and every byte inside it is either as before or as the command would have written it (R152).
Which of the two is a free value (log entry 12). A command that is illegal or fails its checks, abandoned, leaves the memory as
it is, the contexts cleared likewise (R134, R152). The state is the one with `rst` still asserted: that the core is cleared at
the assertion is the model's reading (log entry 17). -/
def Obligations.ResetAbandonsCommand : Prop :=
  (∀ (s : State) (d : Command) (i : Instr) (rest : List HostAct),
    Memory.wf s.mem → s.host = .assertReset :: rest → s.captured = some d → decode s.cfg.snapshotEn d = .ok i →
    s.checkCommand i = none → s.DutiesMet i →
    ∃ t u, step s = .next t ∧ exec i s = .next u ∧
      t.busy = false ∧ t.statusWord = 0 ∧ t.ctxFlagsWord = 0 ∧ t.nctx = s.nctx ∧
      (∀ k, k < s.nctx → t.ctxs[k]? = some Context.cleared) ∧
      (∀ a, ¬ InRange (writeRange i) a → t.mem.read a = s.mem.read a) ∧
      (∀ a, InRange (writeRange i) a → t.mem.read a = s.mem.read a ∨ t.mem.read a = u.mem.read a)) ∧
  (∀ (s : State) (d : Command) (rest : List HostAct),
    s.host = .assertReset :: rest → s.captured = some d →
    (∀ i, decode s.cfg.snapshotEn d = .ok i → s.checkCommand i ≠ none) →
    ∃ t, step s = .next t ∧ t.mem = s.mem ∧ t.host = rest ∧
      t.busy = false ∧ t.statusWord = 0 ∧ t.ctxFlagsWord = 0 ∧ t.nctx = s.nctx ∧
      (∀ k, k < s.nctx → t.ctxs[k]? = some Context.cleared))

/-- The values of R26 in `State.reset`: zero words and flags, `STATUS`, `CONFIG` and `CTXFLAGS`, idle. (The number of
contexts, 1, is the default of R5.) -/
def Obligations.ResetValues : Prop :=
  State.reset.ctxs = [{ x := Vector.replicate 16 0, keyed := false, ivset := false }] ∧
  State.reset.statusWord = 0 ∧ State.reset.configWord = 0x00140101 ∧ State.reset.ctxFlagsWord = 0 ∧
  State.reset.captured = none ∧ State.reset.cmdReady = true

/-! ## Primitives and the permutation core -/

/-- `ADD32` is addition modulo 2^32 (R70). -/
def Obligations.AddIsModulo : Prop := ∀ a b : Word, (add32 a b).toNat = (a.toNat + b.toNat) % 2 ^ 32

/-- `ROTL32(v, n)`, for `n` in 1 to 31: bit `i` of `v` becomes bit `(i + n) mod 32` of the result (R72). -/
def Obligations.RotateMovesEachBit : Prop :=
  ∀ (v : Word) (n i : Nat), 1 ≤ n → n ≤ 31 → i < 32 → (rotl32 v n).getLsbD ((i + n) % 32) = v.getLsbD i

/-- `LE32` is `b0 + 2^8*b1 + 2^16*b2 + 2^24*b3` (R73), `BYTES_LE` gives `v[7:0], v[15:8], v[23:16], v[31:24]` in that order,
and the two are inverse (R74). -/
def Obligations.LittleEndianConversions : Prop :=
  (∀ b0 b1 b2 b3 : Byte, (le32 b0 b1 b2 b3).toNat =
    b0.toNat + 2 ^ 8 * b1.toNat + 2 ^ 16 * b2.toNat + 2 ^ 24 * b3.toNat) ∧
  (∀ (v : Word) (j : Fin 4), ((bytesLE v)[j]).toNat = v.toNat / 2 ^ (8 * j.val) % 2 ^ 8) ∧
  (∀ v : Word, le32 (bytesLE v)[0] (bytesLE v)[1] (bytesLE v)[2] (bytesLE v)[3] = v) ∧
  (∀ b0 b1 b2 b3 : Byte, bytesLE (le32 b0 b1 b2 b3) = #v[b0, b1, b2, b3])

/-- The worked examples of the quarter-round (R90, R91; 95_test_vectors section 2). -/
def Obligations.QuarterRoundExamples : Prop :=
  qr 0x11111111 0x01020304 0x9b8d6f43 0x01234567 = (0xea2a92f4, 0xcb1cf8ce, 0x4581472e, 0x5881c4bb) ∧
  qr 1 0 0 0 = (0x10000001, 0x80808808, 0x01010110, 0x01000110) ∧
  qr 0 0 0 1 = (0x10000000, 0x80800808, 0x01010010, 0x01000010) ∧
  qr 0xffffffff 0xffffffff 0xffffffff 0xffffffff = (0xf0000ffd, 0x88790878, 0x0110fdef, 0x010ffdf0)

/-- `QR` is a bijection on quadruples of words (R91). -/
def Obligations.QuarterRoundIsBijective : Prop :=
  Function.Bijective (fun q : Word × Word × Word × Word => qr q.1 q.2.1 q.2.2.1 q.2.2.2)

/-- The column round applies `QR` to the four columns, the diagonal round to the four diagonals, group `k` being `(k, 4 +
(k+1) mod 4, 8 + (k+2) mod 4, 12 + (k+3) mod 4)` (R92, R93). -/
def Obligations.RoundsApplyQrToEachGroup : Prop :=
  ∀ (w : Block) (k : Fin 4),
    ((colRound w)[k.val], (colRound w)[4 + k.val], (colRound w)[8 + k.val], (colRound w)[12 + k.val]) =
      qr w[k.val] w[4 + k.val] w[8 + k.val] w[12 + k.val] ∧
    ((diagRound w)[k.val], (diagRound w)[4 + (k.val + 1) % 4], (diagRound w)[8 + (k.val + 2) % 4],
        (diagRound w)[12 + (k.val + 3) % 4]) =
      qr w[k.val] w[4 + (k.val + 1) % 4] w[8 + (k.val + 2) % 4] w[12 + (k.val + 3) % 4]

/-- The quarter-rounds of a round may be performed in any order: applied to disjoint index groups, they commute (R95). -/
def Obligations.QuarterRoundsOnDisjointGroupsCommute : Prop :=
  ∀ (w : Block) (i j k l i' j' k' l' : Fin 16), [i, j, k, l, i', j', k', l'].Nodup →
    qrAt (qrAt w i j k l) i' j' k' l' = qrAt (qrAt w i' j' k' l') i j k l

/-- The spec's derived law: `DOUBLEROUND_LANES` on the rows of `w` yields the rows of `DOUBLEROUND(w)`, and `VQR` on the rows is the column round
(R101, R102, R103). -/
def Obligations.LaneFormIsEquivalent : Prop :=
  ∀ w : Block,
    doubleRoundLanes (rowOf w 0) (rowOf w 1) (rowOf w 2) (rowOf w 3) =
      (rowOf (doubleRound w) 0, rowOf (doubleRound w) 1, rowOf (doubleRound w) 2, rowOf (doubleRound w) 3) ∧
    vqr (rowOf w 0) (rowOf w 1) (rowOf w 2) (rowOf w 3) =
      (rowOf (colRound w) 0, rowOf (colRound w) 1, rowOf (colRound w) 2, rowOf (colRound w) 3)

/-- `PERMUTE20` is a bijection on 16-word states (R97). -/
def Obligations.PermutationIsBijective : Prop := Function.Bijective permute20

/-- `BLOCK(s)` is `PERMUTE20(s) + s` word by word, and `PERMUTE20` is ten double-rounds (R97, R98, R99). -/
def Obligations.BlockIsPermutationPlusInput : Prop :=
  ∀ (s : Block) (i : Fin 16), (block s)[i] = add32 (permute20 s)[i] s[i] ∧ permute20 s = doubleRound^[10] s

/-- `SERIALIZE`: byte `4*i + j` is `BYTES_LE(o[i])[j]` (R100). -/
def Obligations.SerializeEmitsLittleEndianWords : Prop :=
  ∀ (o : Block) (i : Fin 16) (j : Fin 4), (serialize o)[4 * i.val + j.val] = (bytesLE o[i])[j]
end

