-- ==== Sys2Proof/Laws/Memory.lean ====
section
/-! SUPPORT. The laws of the memory operations: what a read sees after each of them, that each keeps the canonical form, and
that canonical memories with equal reads are equal. -/

namespace Sys2Proof.Machine

theorem Memory.wf_nil : Memory.wf [] := by simp [Memory.wf]

theorem Memory.wf_tail {c : Host.Cell} {m : Memory} (h : Memory.wf (c :: m)) : Memory.wf m :=
  ⟨(List.pairwise_cons.mp h.1).2, fun d hd => h.2 d (List.mem_cons_of_mem _ hd)⟩

/-- An address listed nowhere reads the unlisted value. -/
theorem Memory.read_unlisted {m : Memory} {a : Nat} (h : ∀ c ∈ m, c.1 ≠ a) : m.read a = Memory.unlisted := by
  induction m with
  | nil => rfl
  | cons c m ih =>
    have hc : a ≠ c.1 := fun e => h c (List.mem_cons_self ..) e.symm
    simpa [Memory.read, hc] using ih (fun d hd => h d (List.mem_cons_of_mem _ hd))

theorem Memory.read_below {m : Memory} {a : Nat} (h : ∀ c ∈ m, a < c.1) : m.read a = Memory.unlisted :=
  Memory.read_unlisted (fun c hc => (Nat.ne_of_gt (h c hc)))

/-! ## Write -/

theorem Memory.read_write_self {m : Memory} (h : Memory.wf m) (a : Nat) (v : Byte) : (m.write a v).read a = v := by
  induction m with
  | nil => by_cases hv : v = Memory.unlisted <;> simp [Memory.write, Memory.read, hv]
  | cons c m ih =>
    obtain ⟨b, w⟩ := c
    have hlt := (List.pairwise_cons.mp h.1).1
    simp only [Memory.write]
    split_ifs with h1 h2 h3 h4
    · rw [Memory.read_below, h2]
      intro d hd
      rcases List.mem_cons.mp hd with rfl | hd
      · exact h1
      · exact h1.trans (hlt d hd)
    · simp [Memory.read]
    · subst h3
      rw [Memory.read_below hlt, h4]
    · simp [Memory.read]
    · simpa [Memory.read, h3] using ih (Memory.wf_tail h)

theorem Memory.read_write_other (m : Memory) {a b : Nat} (hab : b ≠ a) (v : Byte) :
    (m.write a v).read b = m.read b := by
  induction m with
  | nil => by_cases hv : v = Memory.unlisted <;> simp [Memory.write, Memory.read, hv, hab]
  | cons c m ih =>
    obtain ⟨k, w⟩ := c
    simp only [Memory.write]
    split_ifs with h1 h2 h3 h4
    · rfl
    · simp [Memory.read, hab]
    · subst h3; simp [Memory.read, hab]
    · subst h3; simp [Memory.read, hab]
    · simp only [Memory.read, ih]

/-- What a read sees after a write. -/
theorem Memory.read_write {m : Memory} (h : Memory.wf m) (a b : Nat) (v : Byte) :
    (m.write a v).read b = if b = a then v else m.read b := by
  split_ifs with hb
  · subst hb; exact Memory.read_write_self h b v
  · exact Memory.read_write_other m hb v

theorem Memory.mem_write {m : Memory} {a : Nat} {v : Byte} {c : Host.Cell} (hc : c ∈ m.write a v) :
    c ∈ m ∨ (c = (a, v) ∧ v ≠ Memory.unlisted) := by
  induction m with
  | nil =>
    simp only [Memory.write] at hc
    split_ifs at hc with h1
    · simp at hc
    · exact .inr ⟨by simpa using hc, h1⟩
  | cons d m ih =>
    obtain ⟨k, w⟩ := d
    simp only [Memory.write] at hc
    split_ifs at hc with h1 h2 h3 h4
    · exact .inl hc
    · rcases List.mem_cons.mp hc with rfl | hc
      · exact .inr ⟨rfl, h2⟩
      · exact .inl hc
    · exact .inl (List.mem_cons_of_mem _ hc)
    · rcases List.mem_cons.mp hc with rfl | hc
      · exact .inr ⟨rfl, h4⟩
      · exact .inl (List.mem_cons_of_mem _ hc)
    · rcases List.mem_cons.mp hc with rfl | hc
      · exact .inl (List.mem_cons_self ..)
      · rcases ih hc with h | h
        · exact .inl (List.mem_cons_of_mem _ h)
        · exact .inr h

/-- A write inside the address space keeps the canonical form. -/
theorem Memory.write_wf {m : Memory} (h : Memory.wf m) {a : Nat} (ha : a < memTop) (v : Byte) :
    Memory.wf (m.write a v) := by
  refine ⟨?_, fun c hc => ?_⟩
  · obtain ⟨hp, -⟩ := h
    induction m with
    | nil => by_cases hv : v = Memory.unlisted <;> simp [Memory.write, hv]
    | cons c m ih =>
      obtain ⟨k, w⟩ := c
      obtain ⟨hlt, hp'⟩ := List.pairwise_cons.mp hp
      simp only [Memory.write]
      split_ifs with h1 h2 h3 h4
      · exact hp
      · refine List.pairwise_cons.mpr ⟨fun d hd => ?_, hp⟩
        rcases List.mem_cons.mp hd with rfl | hd
        · exact h1
        · exact h1.trans (hlt d hd)
      · exact hp'
      · subst h3; exact List.pairwise_cons.mpr ⟨hlt, hp'⟩
      · refine List.pairwise_cons.mpr ⟨fun d hd => ?_, ih hp'⟩
        rcases Memory.mem_write hd with hd | ⟨rfl, -⟩
        · exact hlt d hd
        · show k < a
          omega
  · rcases Memory.mem_write hc with hc | ⟨rfl, hv⟩
    · exact h.2 c hc
    · exact ⟨ha, hv⟩

/-- Canonical memories that read the same everywhere are equal. -/
theorem Memory.ext_of_read {m n : Memory} (hm : Memory.wf m) (hn : Memory.wf n) (h : ∀ a, m.read a = n.read a) :
    m = n := by
  induction m generalizing n with
  | nil =>
    cases n with
    | nil => rfl
    | cons d n =>
      have := h d.1
      simp only [Memory.read, if_true] at this
      exact absurd this.symm (hn.2 d (List.mem_cons_self ..)).2
  | cons c m ih =>
    have hcm := (List.pairwise_cons.mp hm.1).1
    have hc0 := (hm.2 c (List.mem_cons_self ..)).2
    cases n with
    | nil =>
      have := h c.1
      simp only [Memory.read, if_true] at this
      exact absurd this hc0
    | cons d n =>
      have hdn := (List.pairwise_cons.mp hn.1).1
      have hd0 := (hn.2 d (List.mem_cons_self ..)).2
      have hk : c.1 = d.1 := by
        rcases Nat.lt_trichotomy c.1 d.1 with hlt | he | hgt
        · have := h c.1
          rw [Memory.read_below (m := d :: n) (a := c.1)] at this
          · simp only [Memory.read, if_true] at this
            exact absurd this hc0
          · intro e he
            rcases List.mem_cons.mp he with rfl | he
            · exact hlt
            · exact hlt.trans (hdn e he)
        · exact he
        · have := h d.1
          rw [Memory.read_below (m := c :: m) (a := d.1)] at this
          · simp only [Memory.read, if_true] at this
            exact absurd this.symm hd0
          · intro e he
            rcases List.mem_cons.mp he with rfl | he
            · exact hgt
            · exact hgt.trans (hcm e he)
      have hv : c.2 = d.2 := by
        have := h c.1
        simpa [Memory.read, hk] using this
      have hrest : m = n := by
        refine ih (Memory.wf_tail hm) (Memory.wf_tail hn) (fun a => ?_)
        by_cases ha : a = c.1
        · rw [Memory.read_below (m := m) (by rw [ha]; exact hcm), Memory.read_below (m := n) (by rw [ha, hk]; exact hdn)]
        · have := h a
          simpa [Memory.read, ha, hk ▸ ha] using this
      rw [hrest, Prod.ext hk hv]

/-! ## Byte strings -/

theorem Memory.writeBytes_wf {m : Memory} (h : Memory.wf m) {a : Nat} {bs : List Byte}
    (ha : a + bs.length ≤ memTop) : Memory.wf (m.writeBytes a bs) := by
  induction bs generalizing m a with
  | nil => exact h
  | cons b bs ih =>
    simp only [List.length_cons] at ha
    exact ih (Memory.write_wf h (by omega) b) (by omega)

/-- What a read sees after a byte string was stored. -/
theorem Memory.read_writeBytes {m : Memory} (h : Memory.wf m) {a : Nat} {bs : List Byte}
    (ha : a + bs.length ≤ memTop) (x : Nat) :
    (m.writeBytes a bs).read x = if a ≤ x ∧ x < a + bs.length then bs.getD (x - a) 0 else m.read x := by
  induction bs generalizing m a with
  | nil => simp only [Memory.writeBytes, List.length_nil]; rw [if_neg (by omega)]
  | cons b bs ih =>
    simp only [List.length_cons] at ha ⊢
    rw [Memory.writeBytes, ih (Memory.write_wf h (by omega) b) (by omega), Memory.read_write h]
    by_cases hx : x = a
    · subst hx
      rw [if_neg (by omega), if_pos rfl, if_pos (by omega)]
      simp
    · by_cases hr : a + 1 ≤ x ∧ x < a + 1 + bs.length
      · rw [if_pos hr, if_pos (by omega)]
        obtain ⟨k, rfl⟩ : ∃ k, x = a + 1 + k := ⟨x - (a + 1), by omega⟩
        rw [show a + 1 + k - (a + 1) = k by omega, show a + 1 + k - a = k + 1 by omega]
        rfl
      · rw [if_neg hr, if_neg hx, if_neg (by omega)]

/-! ## The combine of the stream engine -/

theorem xorInto_succ (ks : Vector Byte 64) (op ip n : Nat) (m : Memory) :
    xorInto ks op ip (n + 1) m =
      (xorInto ks op ip n m).write (op + n) (xor8 ((xorInto ks op ip n m).read (ip + n)) (ksByte ks n)) := by
  simp [xorInto, List.range_succ]

theorem xorInto_wf {m : Memory} (h : Memory.wf m) (ks : Vector Byte 64) {op n : Nat} (ip : Nat)
    (ho : op + n ≤ memTop) : Memory.wf (xorInto ks op ip n m) := by
  induction n with
  | zero => exact h
  | succ n ih =>
    rw [xorInto_succ]
    exact Memory.write_wf (ih (by omega)) (by omega) _

/-- What a read sees after the combine, the output range being identical to the input range or disjoint from it. -/
theorem read_xorInto {m : Memory} (h : Memory.wf m) (ks : Vector Byte 64) {op ip n : Nat}
    (ho : op + n ≤ memTop) (hov : SupportedOverlap op ip n) (x : Nat) :
    (xorInto ks op ip n m).read x =
      if op ≤ x ∧ x < op + n then xor8 (m.read (ip + (x - op))) (ksByte ks (x - op)) else m.read x := by
  have key : ∀ k, k ≤ n → ∀ y, (xorInto ks op ip k m).read y =
      if op ≤ y ∧ y < op + k then xor8 (m.read (ip + (y - op))) (ksByte ks (y - op)) else m.read y := by
    intro k
    induction k with
    | zero => intro _ y; rw [if_neg (by omega)]; rfl
    | succ k ih =>
      intro hk y
      rw [xorInto_succ, Memory.read_write (xorInto_wf h ks ip (by omega))]
      by_cases hy : y = op + k
      · subst hy
        rw [if_pos rfl, if_pos (by omega), ih (by omega), if_neg, show op + k - op = k by omega]
        rcases hov with he | he | he <;> omega
      · rw [if_neg hy, ih (by omega)]
        by_cases hr : op ≤ y ∧ y < op + k
        · rw [if_pos hr, if_pos (by omega)]
        · rw [if_neg hr, if_neg (by omega)]
  exact key n le_rfl x

/-! ## The memory an abandoned command leaves -/

theorem abandonedMemory_succ (draw base n : Nat) (old new : Memory) :
    abandonedMemory draw base (n + 1) old new =
      if Config.landed draw (base + n) then
        (abandonedMemory draw base n old new).write (base + n) (new.read (base + n))
      else abandonedMemory draw base n old new := by
  simp [abandonedMemory, List.range_succ]

theorem abandonedMemory_wf {old : Memory} (h : Memory.wf old) (draw : Nat) {base n : Nat} (new : Memory)
    (hb : base + n ≤ memTop) : Memory.wf (abandonedMemory draw base n old new) := by
  induction n with
  | zero => exact h
  | succ n ih =>
    rw [abandonedMemory_succ]
    split_ifs
    · exact Memory.write_wf (ih (by omega)) (by omega) _
    · exact ih (by omega)

/-- What a read sees in the memory an abandoned command leaves. -/
theorem read_abandonedMemory {old : Memory} (h : Memory.wf old) (draw : Nat) {base n : Nat} (new : Memory)
    (hb : base + n ≤ memTop) (x : Nat) :
    (abandonedMemory draw base n old new).read x =
      if (base ≤ x ∧ x < base + n) ∧ Config.landed draw x = true then new.read x else old.read x := by
  induction n with
  | zero => rw [if_neg (by omega)]; rfl
  | succ n ih =>
    have ih := ih (by omega)
    rw [abandonedMemory_succ]
    split_ifs with h1 h2 h2
    · rw [Memory.read_write (abandonedMemory_wf h draw new (by omega))]
      by_cases hx : x = base + n
      · rw [if_pos hx, hx]
      · rw [if_neg hx, ih, if_pos ⟨by omega, h2.2⟩]
    · rw [Memory.read_write (abandonedMemory_wf h draw new (by omega))]
      have hx : x ≠ base + n := by
        rintro rfl
        exact h2 ⟨by omega, h1⟩
      rw [if_neg hx, ih, if_neg (fun hc => h2 ⟨by omega, hc.2⟩)]
    · rw [ih, if_pos]
      refine ⟨⟨h2.1.1, ?_⟩, h2.2⟩
      have hx : x ≠ base + n := by
        rintro rfl
        exact h1 h2.2
      omega
    · rw [ih, if_neg (fun hc => h2 ⟨by omega, hc.2⟩)]

end Sys2Proof.Machine
end

