-- ==== Sys2Proof/Laws/State.lean ====
section
/-! SUPPORT. What each named update of the state does to each of its fields. -/

namespace Sys2Proof.Machine

/-! ## accept -/

@[simp] theorem State.accept_ctxs (s : State) (d : Command) : (s.accept d).ctxs = s.ctxs := rfl
@[simp] theorem State.accept_status (s : State) (d : Command) : (s.accept d).status = { done := false, error := none, serr := s.status.serr } := rfl
@[simp] theorem State.accept_captured (s : State) (d : Command) : (s.accept d).captured = some d := rfl
@[simp] theorem State.accept_work (s : State) (d : Command) : (s.accept d).work = s.work := rfl
@[simp] theorem State.accept_cfg (s : State) (d : Command) : (s.accept d).cfg = s.cfg := rfl
@[simp] theorem State.accept_mem (s : State) (d : Command) : (s.accept d).mem = s.mem := rfl
@[simp] theorem State.accept_platform (s : State) (d : Command) : (s.accept d).platform = s.platform := rfl
@[simp] theorem State.accept_srData (s : State) (d : Command) : (s.accept d).srData = s.srData := rfl
@[simp] theorem State.accept_loadData (s : State) (d : Command) : (s.accept d).loadData = s.loadData := rfl
@[simp] theorem State.accept_host (s : State) (d : Command) : (s.accept d).host = s.host := rfl
@[simp] theorem State.accept_draws (s : State) (d : Command) : (s.accept d).draws = s.draws := rfl
@[simp] theorem State.accept_rst (s : State) (d : Command) : (s.accept d).rst = s.rst := rfl

/-! ## completeOk -/

@[simp] theorem State.completeOk_ctxs (s : State) : (s.completeOk).ctxs = s.ctxs := rfl
@[simp] theorem State.completeOk_status (s : State) : (s.completeOk).status = { done := true, error := none, serr := s.status.serr } := rfl
@[simp] theorem State.completeOk_captured (s : State) : (s.completeOk).captured = none := rfl
@[simp] theorem State.completeOk_work (s : State) : (s.completeOk).work = s.work := rfl
@[simp] theorem State.completeOk_cfg (s : State) : (s.completeOk).cfg = s.cfg := rfl
@[simp] theorem State.completeOk_mem (s : State) : (s.completeOk).mem = s.mem := rfl
@[simp] theorem State.completeOk_platform (s : State) : (s.completeOk).platform = s.platform := rfl
@[simp] theorem State.completeOk_srData (s : State) : (s.completeOk).srData = s.srData := rfl
@[simp] theorem State.completeOk_loadData (s : State) : (s.completeOk).loadData = s.loadData := rfl
@[simp] theorem State.completeOk_host (s : State) : (s.completeOk).host = s.host := rfl
@[simp] theorem State.completeOk_draws (s : State) : (s.completeOk).draws = s.draws := rfl
@[simp] theorem State.completeOk_rst (s : State) : (s.completeOk).rst = s.rst := rfl

/-! ## completeErr -/

@[simp] theorem State.completeErr_ctxs (s : State) (k : Cause) : (s.completeErr k).ctxs = s.ctxs := rfl
@[simp] theorem State.completeErr_status (s : State) (k : Cause) : (s.completeErr k).status = { done := true, error := some k, serr := true } := rfl
@[simp] theorem State.completeErr_captured (s : State) (k : Cause) : (s.completeErr k).captured = none := rfl
@[simp] theorem State.completeErr_work (s : State) (k : Cause) : (s.completeErr k).work = s.work := rfl
@[simp] theorem State.completeErr_cfg (s : State) (k : Cause) : (s.completeErr k).cfg = s.cfg := rfl
@[simp] theorem State.completeErr_mem (s : State) (k : Cause) : (s.completeErr k).mem = s.mem := rfl
@[simp] theorem State.completeErr_platform (s : State) (k : Cause) : (s.completeErr k).platform = s.platform := rfl
@[simp] theorem State.completeErr_srData (s : State) (k : Cause) : (s.completeErr k).srData = s.srData := rfl
@[simp] theorem State.completeErr_loadData (s : State) (k : Cause) : (s.completeErr k).loadData = s.loadData := rfl
@[simp] theorem State.completeErr_host (s : State) (k : Cause) : (s.completeErr k).host = s.host := rfl
@[simp] theorem State.completeErr_draws (s : State) (k : Cause) : (s.completeErr k).draws = s.draws := rfl
@[simp] theorem State.completeErr_rst (s : State) (k : Cause) : (s.completeErr k).rst = s.rst := rfl

/-! ## updCtx -/

@[simp] theorem State.updCtx_ctxs (s : State) (c : CtxNum) (f : Context → Context) : (s.updCtx c f).ctxs = s.ctxs.modify c.toNat f := rfl
@[simp] theorem State.updCtx_status (s : State) (c : CtxNum) (f : Context → Context) : (s.updCtx c f).status = s.status := rfl
@[simp] theorem State.updCtx_captured (s : State) (c : CtxNum) (f : Context → Context) : (s.updCtx c f).captured = s.captured := rfl
@[simp] theorem State.updCtx_work (s : State) (c : CtxNum) (f : Context → Context) : (s.updCtx c f).work = s.work := rfl
@[simp] theorem State.updCtx_cfg (s : State) (c : CtxNum) (f : Context → Context) : (s.updCtx c f).cfg = s.cfg := rfl
@[simp] theorem State.updCtx_mem (s : State) (c : CtxNum) (f : Context → Context) : (s.updCtx c f).mem = s.mem := rfl
@[simp] theorem State.updCtx_platform (s : State) (c : CtxNum) (f : Context → Context) : (s.updCtx c f).platform = s.platform := rfl
@[simp] theorem State.updCtx_srData (s : State) (c : CtxNum) (f : Context → Context) : (s.updCtx c f).srData = s.srData := rfl
@[simp] theorem State.updCtx_loadData (s : State) (c : CtxNum) (f : Context → Context) : (s.updCtx c f).loadData = s.loadData := rfl
@[simp] theorem State.updCtx_host (s : State) (c : CtxNum) (f : Context → Context) : (s.updCtx c f).host = s.host := rfl
@[simp] theorem State.updCtx_draws (s : State) (c : CtxNum) (f : Context → Context) : (s.updCtx c f).draws = s.draws := rfl
@[simp] theorem State.updCtx_rst (s : State) (c : CtxNum) (f : Context → Context) : (s.updCtx c f).rst = s.rst := rfl

/-! ## absorb -/

@[simp] theorem State.absorb_ctxs (s : State) (c : CtxNum) (e : Engine) : (s.absorb c e).ctxs = s.ctxs.modify c.toNat (fun k => { k with x := e.x }) := rfl
@[simp] theorem State.absorb_status (s : State) (c : CtxNum) (e : Engine) : (s.absorb c e).status = s.status := rfl
@[simp] theorem State.absorb_captured (s : State) (c : CtxNum) (e : Engine) : (s.absorb c e).captured = s.captured := rfl
@[simp] theorem State.absorb_work (s : State) (c : CtxNum) (e : Engine) : (s.absorb c e).work = Work.cleared := rfl
@[simp] theorem State.absorb_cfg (s : State) (c : CtxNum) (e : Engine) : (s.absorb c e).cfg = s.cfg := rfl
@[simp] theorem State.absorb_mem (s : State) (c : CtxNum) (e : Engine) : (s.absorb c e).mem = e.mem := rfl
@[simp] theorem State.absorb_platform (s : State) (c : CtxNum) (e : Engine) : (s.absorb c e).platform = s.platform := rfl
@[simp] theorem State.absorb_srData (s : State) (c : CtxNum) (e : Engine) : (s.absorb c e).srData = s.srData := rfl
@[simp] theorem State.absorb_loadData (s : State) (c : CtxNum) (e : Engine) : (s.absorb c e).loadData = s.loadData := rfl
@[simp] theorem State.absorb_host (s : State) (c : CtxNum) (e : Engine) : (s.absorb c e).host = s.host := rfl
@[simp] theorem State.absorb_draws (s : State) (c : CtxNum) (e : Engine) : (s.absorb c e).draws = s.draws := rfl
@[simp] theorem State.absorb_rst (s : State) (c : CtxNum) (e : Engine) : (s.absorb c e).rst = s.rst := rfl

/-! ## resetCore -/

@[simp] theorem State.resetCore_ctxs (s : State) : (s.resetCore).ctxs = s.ctxs.map (fun _ => Context.cleared) := rfl
@[simp] theorem State.resetCore_status (s : State) : (s.resetCore).status = Status.cleared := rfl
@[simp] theorem State.resetCore_captured (s : State) : (s.resetCore).captured = none := rfl
@[simp] theorem State.resetCore_work (s : State) : (s.resetCore).work = Work.cleared := rfl
@[simp] theorem State.resetCore_cfg (s : State) : (s.resetCore).cfg = s.cfg := rfl
@[simp] theorem State.resetCore_mem (s : State) : (s.resetCore).mem = s.mem := rfl
@[simp] theorem State.resetCore_platform (s : State) : (s.resetCore).platform = s.platform := rfl
@[simp] theorem State.resetCore_srData (s : State) : (s.resetCore).srData = s.srData := rfl
@[simp] theorem State.resetCore_loadData (s : State) : (s.resetCore).loadData = s.loadData := rfl
@[simp] theorem State.resetCore_host (s : State) : (s.resetCore).host = s.host := rfl
@[simp] theorem State.resetCore_draws (s : State) : (s.resetCore).draws = s.draws := rfl
@[simp] theorem State.resetCore_rst (s : State) : (s.resetCore).rst = true := rfl

/-! ## acceptAlone -/

@[simp] theorem State.acceptAlone_ctxs (s : State) (d : Command) : (s.acceptAlone d).ctxs = s.ctxs := rfl
@[simp] theorem State.acceptAlone_status (s : State) (d : Command) : (s.acceptAlone d).status = { done := false, error := none, serr := s.status.serr } := rfl
@[simp] theorem State.acceptAlone_captured (s : State) (d : Command) : (s.acceptAlone d).captured = some d := rfl
@[simp] theorem State.acceptAlone_work (s : State) (d : Command) : (s.acceptAlone d).work = s.work := rfl
@[simp] theorem State.acceptAlone_cfg (s : State) (d : Command) : (s.acceptAlone d).cfg = s.cfg := rfl
@[simp] theorem State.acceptAlone_mem (s : State) (d : Command) : (s.acceptAlone d).mem = s.mem := rfl
@[simp] theorem State.acceptAlone_platform (s : State) (d : Command) : (s.acceptAlone d).platform = s.platform := rfl
@[simp] theorem State.acceptAlone_srData (s : State) (d : Command) : (s.acceptAlone d).srData = s.srData := rfl
@[simp] theorem State.acceptAlone_loadData (s : State) (d : Command) : (s.acceptAlone d).loadData = s.loadData := rfl
@[simp] theorem State.acceptAlone_host (s : State) (d : Command) : (s.acceptAlone d).host = .awaitDone :: s.host := rfl
@[simp] theorem State.acceptAlone_draws (s : State) (d : Command) : (s.acceptAlone d).draws = s.draws := rfl
@[simp] theorem State.acceptAlone_rst (s : State) (d : Command) : (s.acceptAlone d).rst = false := rfl

/-! ## Context flags -/

@[simp] theorem Context.setKeyed_x (c : Context) : c.setKeyed.x = c.x := rfl
@[simp] theorem Context.setKeyed_keyed (c : Context) : c.setKeyed.keyed = true := rfl
@[simp] theorem Context.setKeyed_ivset (c : Context) : c.setKeyed.ivset = c.ivset := rfl
@[simp] theorem Context.setIvset_x (c : Context) : c.setIvset.x = c.x := rfl
@[simp] theorem Context.setIvset_keyed (c : Context) : c.setIvset.keyed = c.keyed := rfl
@[simp] theorem Context.setIvset_ivset (c : Context) : c.setIvset.ivset = true := rfl

/-! ## Computed views -/

theorem State.busy_iff (s : State) : s.busy = true ↔ ∃ d, s.captured = some d := by
  simp [State.busy, Option.isSome_iff_exists]

@[simp] theorem State.completeOk_busy (s : State) : s.completeOk.busy = false := rfl
@[simp] theorem State.completeErr_busy (s : State) (k : Cause) : (s.completeErr k).busy = false := rfl
@[simp] theorem State.accept_busy (s : State) (d : Command) : (s.accept d).busy = true := rfl

@[simp] theorem State.updCtx_nctx (s : State) (c : CtxNum) (f : Context → Context) : (s.updCtx c f).nctx = s.nctx := by
  simp [State.nctx]

@[simp] theorem State.resetCore_nctx (s : State) : s.resetCore.nctx = s.nctx := by simp [State.nctx]

end Sys2Proof.Machine
end

