-- ==== Sys2Proof/Laws/Ops.lean ====
section
/-! SUPPORT. What each shared operation of a meaning can do, said once: ranges, checks, contexts, and from them every
command. -/

namespace Sys2Proof.Machine

/-! ## Ranges -/

theorem State.withRange_plain {s : State} {a n : Nat} (h : s.PlainRange a n) (k : Result) : s.withRange a n k = k := by
  rw [State.withRange, if_pos h]

/-- A range check lets the step go on exactly where the range meets the host's duties. -/
theorem State.withRange_next_iff {s t : State} {a n : Nat} {k : Result} :
    s.withRange a n k = .next t ↔ s.PlainRange a n ∧ k = .next t := by
  by_cases h : s.PlainRange a n
  · rw [State.withRange_plain h]
    exact ⟨fun e => ⟨h, e⟩, fun e => e.2⟩
  · rw [State.withRange, if_neg h]
    constructor
    · intro e; split_ifs at e
    · exact fun e => absurd e.1 h

theorem State.plainRange_empty (s : State) (a : Word) : s.PlainRange a.toNat 0 :=
  ⟨Nat.le_of_lt a.isLt, fun i hi => absurd hi (Nat.not_lt_zero i)⟩

theorem State.PlainRange.mono {s : State} {a n k : Nat} (h : s.PlainRange a n) (hk : k ≤ n) : s.PlainRange a k :=
  ⟨Nat.le_trans (Nat.add_le_add_left hk a) h.1, fun i hi => h.2 i (Nat.lt_of_lt_of_le hi hk)⟩

theorem State.PlainRange.congr {s t : State} {a n : Nat} (hp : t.platform = s.platform) (h : s.PlainRange a n) :
    t.PlainRange a n := by
  unfold State.PlainRange State.kindAt at *
  rw [hp]; exact h

/-! ## Checks -/

theorem State.checkCommand_eq_none_iff {s : State} {i : Instr} :
    s.checkCommand i = none ↔
      i.wf s.cfg.snapshotEn = true ∧ i.ctx.toNat < s.nctx ∧ lengthError i = none := by
  unfold State.checkCommand
  by_cases hw : i.wf s.cfg.snapshotEn = true
  · by_cases hc : s.nctx ≤ i.ctx.toNat
    · simp [hw, hc, Nat.not_lt.mpr hc]
    · simp [hw, hc, Nat.lt_of_not_le hc]
  · simp [hw]

theorem State.checkCommand_congr {s t : State} (hc : t.cfg = s.cfg) (hn : t.nctx = s.nctx) (i : Instr) :
    t.checkCommand i = s.checkCommand i := by
  unfold State.checkCommand
  rw [hc, hn]

theorem State.guarded_pass {s : State} {i : Instr} (h : s.checkCommand i = none) (k : Result) : s.guarded i k = k := by
  rw [State.guarded, h]

theorem State.guarded_fail {s : State} {i : Instr} {c : Cause} (h : s.checkCommand i = some c) (k : Result) :
    s.guarded i k = .next (s.completeErr c) := by
  rw [State.guarded, h]

/-! ## Contexts -/

theorem State.getElem?_updCtx (s : State) (c : CtxNum) (f : Context → Context) (k : Nat) :
    (s.updCtx c f).ctxs[k]? = if k = c.toNat then s.ctxs[k]?.map f else s.ctxs[k]? := by
  simp only [State.updCtx_ctxs, List.getElem?_modify, eq_comm]
  split_ifs <;> simp

theorem State.ctxAt_of_getElem? {s : State} {c : CtxNum} {x : Context} (h : s.ctxs[c.toNat]? = some x) :
    s.ctxAt c = x := by
  rw [State.ctxAt, h]; rfl

theorem State.lt_nctx_of_getElem? {s : State} {c : CtxNum} {x : Context} (h : s.ctxs[c.toNat]? = some x) :
    c.toNat < s.nctx :=
  (List.getElem?_eq_some_iff.mp h).1

theorem State.modify_eq_set {s : State} {c : CtxNum} {x : Context} (h : s.ctxs[c.toNat]? = some x)
    (f : Context → Context) : s.ctxs.modify c.toNat f = s.ctxs.set c.toNat (f x) := by
  rw [List.modify_eq_set_getElem?, h]; rfl

/-! ## Every command -/

/-- The state in which a command that passes its checks, launched as the host's duties ask, completes. -/
def effect : Instr → State → State
  | .setkey ctx keyAddr keyLen, s =>
    (s.updCtx ctx (fun c => { c with x := keyWords s.cfg s.mem keyAddr keyLen c.x }.setKeyed)).completeOk
  | .setiv ctx nonceAddr _ counter, s =>
    (s.updCtx ctx (fun c => { c with x := ivWords s.mem nonceAddr counter c.x }.setIvset)).completeOk
  | .process ctx outAddr inAddr length, s => (s.absorb ctx (s.engineRun ctx outAddr inAddr length)).completeOk
  | .savectx ctx addr, s =>
    { s with mem := s.mem.writeBytes addr.toNat (serialize (s.ctxAt ctx).x).toList }.completeOk
  | .loadctx ctx addr, s =>
    (s.updCtx ctx (fun c => { c with x := imageWords s.mem addr.toNat }.setKeyed.setIvset)).completeOk

theorem exec_fail {s : State} {i : Instr} {k : Cause} (h : s.checkCommand i = some k) :
    exec i s = .next (s.completeErr k) := by
  cases i <;> exact State.guarded_fail h _

theorem exec_pass {s : State} {i : Instr} (h : s.checkCommand i = none) (hd : s.DutiesMet i) :
    exec i s = .next (effect i s) := by
  obtain ⟨hr, hw, ho⟩ := hd
  cases i <;> refine (State.guarded_pass h _).trans ?_
  · exact State.withRange_plain hr _
  · exact State.withRange_plain hr _
  · exact (State.withRange_plain hr _).trans ((State.withRange_plain hw _).trans (if_pos ho))
  · exact State.withRange_plain hw _
  · exact State.withRange_plain hr _

/-- Everything a command that answers a next state can have done. -/
theorem exec_next_iff {s t : State} {i : Instr} :
    exec i s = .next t ↔
      (∃ k, s.checkCommand i = some k ∧ t = s.completeErr k) ∨
        (s.checkCommand i = none ∧ s.DutiesMet i ∧ t = effect i s) := by
  constructor
  · intro h
    cases hk : s.checkCommand i with
    | some k =>
      rw [exec_fail hk] at h
      exact .inl ⟨k, rfl, by injection h with h; exact h.symm⟩
    | none =>
      refine .inr ⟨rfl, ?_⟩
      have hd : s.DutiesMet i := by
        cases i <;> replace h := (State.guarded_pass hk _).symm.trans h
        · exact ⟨(State.withRange_next_iff.mp h).1, State.plainRange_empty .., trivial⟩
        · exact ⟨(State.withRange_next_iff.mp h).1, State.plainRange_empty .., trivial⟩
        · obtain ⟨hr, h⟩ := State.withRange_next_iff.mp h
          obtain ⟨hw, h⟩ := State.withRange_next_iff.mp h
          refine ⟨hr, hw, ?_⟩
          by_contra hn
          rw [if_neg hn] at h
          cases h
        · exact ⟨State.plainRange_empty .., (State.withRange_next_iff.mp h).1, trivial⟩
        · exact ⟨(State.withRange_next_iff.mp h).1, State.plainRange_empty .., trivial⟩
      rw [exec_pass hk hd] at h
      exact ⟨hd, by injection h with h; exact h.symm⟩
  · rintro (⟨k, hk, rfl⟩ | ⟨hk, hd, rfl⟩)
    · exact exec_fail hk
    · exact exec_pass hk hd

/-! ## What every effect leaves alone -/

theorem effect_cfg (i : Instr) (s : State) : (effect i s).cfg = s.cfg := by cases i <;> rfl
theorem effect_platform (i : Instr) (s : State) : (effect i s).platform = s.platform := by cases i <;> rfl
theorem effect_host (i : Instr) (s : State) : (effect i s).host = s.host := by cases i <;> rfl
theorem effect_srData (i : Instr) (s : State) : (effect i s).srData = s.srData := by cases i <;> rfl
theorem effect_loadData (i : Instr) (s : State) : (effect i s).loadData = s.loadData := by cases i <;> rfl
theorem effect_rst (i : Instr) (s : State) : (effect i s).rst = s.rst := by cases i <;> rfl
theorem effect_draws (i : Instr) (s : State) : (effect i s).draws = s.draws := by cases i <;> rfl
theorem effect_captured (i : Instr) (s : State) : (effect i s).captured = none := by cases i <;> rfl
theorem effect_status (i : Instr) (s : State) :
    (effect i s).status = { done := true, error := none, serr := s.status.serr } := by cases i <;> rfl

theorem effect_nctx (i : Instr) (s : State) : (effect i s).nctx = s.nctx := by
  cases i <;> simp [effect, State.nctx]

end Sys2Proof.Machine
end

