-- ==== Sys2Proof/Laws/Step.lean ====
section
/-! SUPPORT. Everything a step can do, said once. -/

namespace Sys2Proof.Machine

/-- Executing a captured command: the error of an illegal one, or its meaning. -/
theorem runCommand_next_iff {d : Command} {s t : State} :
    runCommand d s = .next t ↔
      (∃ r, decode s.cfg.snapshotEn d = .error r ∧ t = s.completeErr .illegalCmd) ∨
        (∃ i, decode s.cfg.snapshotEn d = .ok i ∧ exec i s = .next t) := by
  unfold runCommand
  cases decode s.cfg.snapshotEn d with
  | error r => simp [eq_comm]
  | ok i => simp

theorem step_of_waits {s : State} (h : s.hostWaits = true) {d : Command} (hd : s.captured = some d) :
    step s = runCommand d s := by
  unfold State.hostWaits at h
  unfold step coreTurn
  split <;> simp_all

/-- Everything a step that answers a next state can have done. -/
theorem step_next {s t : State} (h : step s = .next t) :
    (∃ a b rest, s.host = .store a b :: rest ∧ hostStore a b { s with host := rest } = .next t) ∨
    (∃ a rest, s.host = .load a :: rest ∧ hostLoad a { s with host := rest } = .next t) ∨
    (∃ sel rest, s.host = .readStatus sel :: rest ∧ t = { s with host := rest, srData := s.statusReg sel }) ∨
    (∃ rest, s.host = .assertReset :: rest ∧ hostReset { s with host := rest } = .next t) ∨
    (∃ rest, s.host = .releaseReset :: rest ∧ t = { s with host := rest, rst := false }) ∨
    (∃ d, s.hostWaits = true ∧ s.captured = some d ∧ runCommand d s = .next t) ∨
    (∃ d rest, s.host = .present d :: rest ∧ s.captured = none ∧ t = s.offer d rest) ∨
    (∃ rest, s.host = .awaitDone :: rest ∧ s.captured = none ∧ t = { s with host := rest }) ∨
    (s.host = [] ∧ s.captured = none ∧ t = s) := by
  unfold step at h
  split at h
  · exact .inl ⟨_, _, _, ‹_›, h⟩
  · exact .inr (.inl ⟨_, _, ‹_›, h⟩)
  · refine .inr (.inr (.inl ⟨_, _, ‹_›, ?_⟩))
    injection h with h
    exact h.symm
  · exact .inr (.inr (.inr (.inl ⟨_, ‹_›, h⟩)))
  · refine .inr (.inr (.inr (.inr (.inl ⟨_, ‹_›, ?_⟩))))
    injection h with h
    exact h.symm
  all_goals
    unfold coreTurn at h
    split at h
    · exact .inr (.inr (.inr (.inr (.inr (.inl ⟨_, by simp_all [State.hostWaits], ‹_›, h⟩)))))
    · injection h with h
      simp_all

/-- The command in flight that will access memory, spelled out. -/
theorem State.inFlight_eq_some_iff {s : State} {i : Instr} :
    s.inFlight = some i ↔
      ∃ d, s.captured = some d ∧ decode s.cfg.snapshotEn d = .ok i ∧ s.checkCommand i = none := by
  unfold State.inFlight
  cases hc : s.captured with
  | none => simp
  | some d =>
    cases hd : decode s.cfg.snapshotEn d with
    | error r => simp [hd]
    | ok j =>
      by_cases hk : s.checkCommand j = none
      · simp only [hd, hk, if_true, Option.some.injEq, exists_eq_left', Except.ok.injEq]
        exact ⟨fun h => ⟨h, h ▸ hk⟩, fun h => h.1⟩
      · simp only [hd, hk, if_false, Option.some.injEq, exists_eq_left', Except.ok.injEq]
        exact ⟨fun h => (nomatch h), fun h => absurd (h.1 ▸ h.2) hk⟩

/-- An address outside the write footprint of whatever command is in flight. -/
theorem State.inWriteFootprint_eq_false {s : State} {a : Nat}
    (h : ∀ d i, s.captured = some d → decode s.cfg.snapshotEn d = .ok i → s.checkCommand i = none →
      ¬ InRange (writeRange i) a) : s.inWriteFootprint a = false := by
  unfold State.inWriteFootprint
  split
  · next i hi =>
    obtain ⟨d, hc, hd, hk⟩ := State.inFlight_eq_some_iff.mp hi
    exact decide_eq_false (h d i hc hd hk)
  · rfl

/-- An address outside the read footprint of whatever command is in flight. -/
theorem State.inReadFootprint_eq_false {s : State} {a : Nat}
    (h : ∀ d i, s.captured = some d → decode s.cfg.snapshotEn d = .ok i → s.checkCommand i = none →
      ¬ InRange (readRange i) a) : s.inReadFootprint a = false := by
  unfold State.inReadFootprint
  split
  · next i hi =>
    obtain ⟨d, hc, hd, hk⟩ := State.inFlight_eq_some_iff.mp hi
    exact decide_eq_false (h d i hc hd hk)
  · rfl

/-- A host store that takes place: no race, plain memory, one byte written. -/
theorem hostStore_next {a : Word} {b : Byte} {s t : State} (h : hostStore a b s = .next t) :
    s.PlainRange a.toNat 1 ∧ t = { s with mem := s.mem.write a.toNat b } := by
  unfold hostStore at h
  split_ifs at h
  obtain ⟨hp, h⟩ := State.withRange_next_iff.mp h
  exact ⟨hp, by injection h with h; exact h.symm⟩

/-- A host load that takes place: no race, plain memory, the byte returned. -/
theorem hostLoad_next {a : Word} {s t : State} (h : hostLoad a s = .next t) :
    s.PlainRange a.toNat 1 ∧ t = { s with loadData := s.mem.read a.toNat } := by
  unfold hostLoad at h
  split_ifs at h
  obtain ⟨hp, h⟩ := State.withRange_next_iff.mp h
  exact ⟨hp, by injection h with h; exact h.symm⟩

/-- A reset that takes place: of an idle core, or of one whose command is abandoned. -/
theorem hostReset_next {s t : State} (h : hostReset s = .next t) :
    (s.captured = none ∧ t = s.resetCore) ∨
    (∃ d u, s.captured = some d ∧ runCommand d s = .next u ∧
      t = { s with
        mem := abandonedMemory s.draws s.abandonedRange.1 s.abandonedRange.2 s.mem u.mem
        draws := s.draws + 1 }.resetCore) := by
  unfold hostReset at h
  split at h
  · unfold abandon at h
    split at h
    · injection h with h
      exact .inr ⟨_, _, ‹_›, ‹_›, h.symm⟩
    · cases h
    · cases h
  · injection h with h
    exact .inl ⟨‹_›, h.symm⟩

end Sys2Proof.Machine
end

