-- ==== Sys2Proof/Laws/Stream.lean ====
section
/-! SUPPORT. What the block loop of the stream engine does, said once. -/

namespace Sys2Proof.Machine

/-- Byte `j` of the keystream that a context holding `x` generates: byte `j mod 64` of the block of counter `x[12] + j div
64`. -/
def keystreamByte (x : Block) (j : Nat) : Byte :=
  (serialize (block (x.set 12 (add32 x[12] (BitVec.ofNat 32 (j / 64))))))[j % 64]'(Nat.mod_lt _ (by decide))

theorem ksByte_of_lt (ks : Vector Byte 64) {i : Nat} (h : i < 64) : ksByte ks i = ks[i] := by
  simp [ksByte, h]

theorem set_counter_zero (x : Block) : x.set 12 (add32 x[12] (BitVec.ofNat 32 0)) = x := by
  apply Vector.ext
  intro i hi
  rw [Vector.getElem_set]
  split_ifs with h
  · subst h; simp [add32]
  · rfl

theorem keystreamByte_first (x : Block) {j : Nat} (h : j < 64) :
    keystreamByte x j = ksByte (serialize (block x)) j := by
  have hd : j / 64 = 0 := Nat.div_eq_of_lt h
  have hm : j % 64 = j := Nat.mod_eq_of_lt h
  simp only [keystreamByte, hd, hm, set_counter_zero]
  exact (ksByte_of_lt _ h).symm

theorem set_counter_add (x : Block) (m n : Nat) :
    (x.set 12 (add32 x[12] (BitVec.ofNat 32 m))).set 12
        (add32 (x.set 12 (add32 x[12] (BitVec.ofNat 32 m)))[12] (BitVec.ofNat 32 n)) =
      x.set 12 (add32 x[12] (BitVec.ofNat 32 (m + n))) := by
  apply Vector.ext
  intro i hi
  by_cases h : i = 12
  · subst h
    simp only [Vector.getElem_set_self, add32, BitVec.add_assoc]
    rw [BitVec.ofNat_add]
  · simp [Ne.symm h]

theorem keystreamByte_later (x : Block) (m j : Nat) :
    keystreamByte (x.set 12 (add32 x[12] (BitVec.ofNat 32 m))) j = keystreamByte x (64 * m + j) := by
  have hd : (64 * m + j) / 64 = m + j / 64 := by omega
  have hm : (64 * m + j) % 64 = j % 64 := by omega
  simp only [keystreamByte, set_counter_add, hd, hm]

theorem blocksOf_step {n : Nat} (h : 64 < n) : blocksOf n = 1 + blocksOf (n - 64) := by
  unfold blocksOf; omega

theorem blocksOf_last {n : Nat} (h : n ≠ 0) (h' : n ≤ 64) : blocksOf n = 1 := by
  unfold blocksOf; omega

theorem toNat_add_of_le {a b : Word} (h : a.toNat + b.toNat < memTop) : (a + b).toNat = a.toNat + b.toNat := by
  rw [BitVec.toNat_add, Nat.mod_eq_of_lt h]

/-! ## The fields of the engine after one block and after the advance -/

@[simp] theorem engineBlock_op (e : Engine) : (engineBlock e).work.op = e.work.op := by simp only [engineBlock]
@[simp] theorem engineBlock_ip (e : Engine) : (engineBlock e).work.ip = e.work.ip := by simp only [engineBlock]
@[simp] theorem engineBlock_rem (e : Engine) : (engineBlock e).work.rem = e.work.rem := by simp only [engineBlock]
@[simp] theorem engineAdvance_x (e : Engine) : (engineAdvance e).x = e.x := by simp only [engineAdvance]
@[simp] theorem engineAdvance_mem (e : Engine) : (engineAdvance e).mem = e.mem := by simp only [engineAdvance]
@[simp] theorem engineAdvance_op (e : Engine) : (engineAdvance e).work.op = e.work.op + 64 := by simp only [engineAdvance]
@[simp] theorem engineAdvance_ip (e : Engine) : (engineAdvance e).work.ip = e.work.ip + 64 := by simp only [engineAdvance]
@[simp] theorem engineAdvance_rem (e : Engine) : (engineAdvance e).work.rem = e.work.rem - 64 := by simp only [engineAdvance]

/-- One block: the words, the canonical form, and every read. -/
theorem engineBlock_spec {e : Engine} (hm : Memory.wf e.mem) {n : Nat} (hn : min e.work.rem.toNat 64 = n)
    (ho : e.work.op.toNat + n ≤ memTop) (hov : SupportedOverlap e.work.op.toNat e.work.ip.toNat n) :
    (engineBlock e).x = e.x.set 12 (add32 e.x[12] 1) ∧ Memory.wf (engineBlock e).mem ∧
    ∀ a, (engineBlock e).mem.read a =
      if e.work.op.toNat ≤ a ∧ a < e.work.op.toNat + n then
        xor8 (e.mem.read (e.work.ip.toNat + (a - e.work.op.toNat))) (keystreamByte e.x (a - e.work.op.toNat))
      else e.mem.read a := by
  refine ⟨rfl, ?_, fun a => ?_⟩
  · show Memory.wf (xorInto _ _ _ (min e.work.rem.toNat 64) _)
    rw [hn]; exact xorInto_wf hm _ _ ho
  · show (xorInto _ _ _ (min e.work.rem.toNat 64) _).read a = _
    rw [hn, read_xorInto hm _ ho hov]
    split_ifs with h
    · rw [keystreamByte_first _ (by omega)]; rfl
    · rfl

/-- The whole loop: the counter advances by the number of blocks, every byte of the output range is the input byte XOR its
keystream byte, every other byte is unchanged, the memory stays canonical. -/
theorem engineLoop_spec (fuel : Nat) (e : Engine) (hm : Memory.wf e.mem) (hf : blocksOf e.work.rem.toNat ≤ fuel)
    (hi : e.work.ip.toNat + e.work.rem.toNat ≤ memTop) (ho : e.work.op.toNat + e.work.rem.toNat ≤ memTop)
    (hov : SupportedOverlap e.work.op.toNat e.work.ip.toNat e.work.rem.toNat) :
    (engineLoop fuel e).x = e.x.set 12 (add32 e.x[12] (BitVec.ofNat 32 (blocksOf e.work.rem.toNat))) ∧
    Memory.wf (engineLoop fuel e).mem ∧
    ∀ a, (engineLoop fuel e).mem.read a =
      if e.work.op.toNat ≤ a ∧ a < e.work.op.toNat + e.work.rem.toNat then
        xor8 (e.mem.read (e.work.ip.toNat + (a - e.work.op.toNat))) (keystreamByte e.x (a - e.work.op.toNat))
      else e.mem.read a := by
  have done : e.work.rem.toNat = 0 →
      e.x = e.x.set 12 (add32 e.x[12] (BitVec.ofNat 32 (blocksOf e.work.rem.toNat))) ∧ Memory.wf e.mem ∧
      ∀ a, e.mem.read a =
        if e.work.op.toNat ≤ a ∧ a < e.work.op.toNat + e.work.rem.toNat then
          xor8 (e.mem.read (e.work.ip.toNat + (a - e.work.op.toNat))) (keystreamByte e.x (a - e.work.op.toNat))
        else e.mem.read a := by
    intro h
    refine ⟨?_, hm, fun a => ?_⟩
    · rw [h]; exact (set_counter_zero _).symm
    · rw [if_neg (by omega)]
  induction fuel generalizing e with
  | zero =>
    have h0 : e.work.rem.toNat = 0 := by unfold blocksOf at hf; omega
    exact done h0
  | succ fuel ih =>
    rw [engineLoop]
    split_ifs with h1 h2
    · exact done (by rw [h1]; rfl)
    · have hr0 : e.work.rem.toNat ≠ 0 := fun h => h1 (BitVec.eq_of_toNat_eq h)
      obtain ⟨hx, hw, hrd⟩ := engineBlock_spec hm (Nat.min_eq_left h2) ho hov
      rw [blocksOf_last hr0 h2]
      exact ⟨hx, hw, hrd⟩
    · have h64 : 64 < e.work.rem.toNat := by omega
      have hmin : min e.work.rem.toNat 64 = 64 := by omega
      have hov' : SupportedOverlap e.work.op.toNat e.work.ip.toNat 64 := by
        rcases hov with h | h | h
        · exact .inl h
        · exact .inr (.inl (by omega))
        · exact .inr (.inr (by omega))
      obtain ⟨hx, hw, hrd⟩ := engineBlock_spec hm hmin (by omega) hov'
      have hop : (e.work.op + 64).toNat = e.work.op.toNat + 64 :=
        toNat_add_of_le (b := 64) (by show _ + 64 < memTop; omega)
      have hip : (e.work.ip + 64).toNat = e.work.ip.toNat + 64 :=
        toNat_add_of_le (b := 64) (by show _ + 64 < memTop; omega)
      have hrem : (e.work.rem - 64).toNat = e.work.rem.toNat - 64 :=
        BitVec.toNat_sub_of_le (y := 64) (BitVec.le_def.mpr (Nat.le_of_lt h64))
      have hb := blocksOf_step h64
      have ih := ih (engineAdvance (engineBlock e)) hw
      simp only [engineAdvance_x, engineAdvance_mem, engineAdvance_op, engineAdvance_ip, engineAdvance_rem,
        engineBlock_op, engineBlock_ip, engineBlock_rem, hop, hip, hrem] at ih
      obtain ⟨ix, iw, ir⟩ := ih (by omega) (by omega) (by omega)
        (by
          rcases hov with h | h | h
          · exact .inl (by omega)
          · exact .inr (.inl (by omega))
          · exact .inr (.inr (by omega)))
        (fun h0 => by omega)
      refine ⟨?_, iw, fun a => ?_⟩
      · rw [ix, hb]
        simp only [hx]
        exact set_counter_add e.x 1 _
      · rw [ir, hx]
        by_cases hr : e.work.op.toNat + 64 ≤ a ∧ a < e.work.op.toNat + 64 + (e.work.rem.toNat - 64)
        · rw [if_pos hr, if_pos (by omega), hrd, if_neg (by rcases hov with h | h | h <;> omega),
            show e.work.ip.toNat + 64 + (a - (e.work.op.toNat + 64)) = e.work.ip.toNat + (a - e.work.op.toNat) by omega]
          have hk := keystreamByte_later e.x 1 (a - (e.work.op.toNat + 64))
          rw [show 64 * 1 + (a - (e.work.op.toNat + 64)) = a - e.work.op.toNat by omega] at hk
          exact congrArg _ hk
        · rw [if_neg hr, hrd]
          by_cases hr' : e.work.op.toNat ≤ a ∧ a < e.work.op.toNat + 64
          · rw [if_pos hr', if_pos (by omega)]
          · rw [if_neg hr', if_neg (by omega)]

/-- The engine of a `PROCESS` launched as the host's duties ask. -/
theorem engineRun_spec {s : State} (hm : Memory.wf s.mem) (ctx : CtxNum) {outA inA len : Word}
    (hd : s.DutiesMet (.process ctx outA inA len)) :
    (s.engineRun ctx outA inA len).x =
      (s.ctxAt ctx).x.set 12 (add32 (s.ctxAt ctx).x[12] (BitVec.ofNat 32 (blocksOf len.toNat))) ∧
    Memory.wf (s.engineRun ctx outA inA len).mem ∧
    ∀ a, (s.engineRun ctx outA inA len).mem.read a =
      if outA.toNat ≤ a ∧ a < outA.toNat + len.toNat then
        xor8 (s.mem.read (inA.toNat + (a - outA.toNat))) (keystreamByte (s.ctxAt ctx).x (a - outA.toNat))
      else s.mem.read a :=
  engineLoop_spec _ { x := (s.ctxAt ctx).x, mem := s.mem, work := { s.work with op := outA, ip := inA, rem := len } }
    hm le_rfl hd.1.1 hd.2.1.1 hd.2.2

/-! ## What the engine leaves alone, whatever the memory -/

/-- The engine changes no word but the counter, whatever the memory. -/
theorem engineLoop_x_other (fuel : Nat) (e : Engine) (i : Fin 16) (hi : i ≠ 12) : (engineLoop fuel e).x[i] = e.x[i] := by
  have hb : ∀ e : Engine, (engineBlock e).x[i] = e.x[i] := fun e => by
    have : ¬ (12 = i.val) := fun h => hi (Fin.ext h.symm)
    simp [engineBlock, this]
  induction fuel generalizing e with
  | zero => rfl
  | succ n ih =>
    simp only [engineLoop]
    split_ifs
    · rfl
    · exact hb e
    · rw [ih]; exact hb e

/-- The combine writes nothing outside its output bytes, whatever the memory. -/
theorem read_xorInto_outside (ks : Vector Byte 64) (op ip n : Nat) (m : Memory) {a : Nat} (ha : ¬ (op ≤ a ∧ a < op + n)) :
    (xorInto ks op ip n m).read a = m.read a := by
  induction n with
  | zero => rfl
  | succ n ih => rw [xorInto_succ, Memory.read_write_other _ (by omega), ih (by omega)]

/-- The engine writes nothing outside its output range, whatever the memory. -/
theorem engineLoop_read_outside (fuel : Nat) (e : Engine) (ho : e.work.op.toNat + e.work.rem.toNat ≤ memTop) {a : Nat}
    (ha : ¬ (e.work.op.toNat ≤ a ∧ a < e.work.op.toNat + e.work.rem.toNat)) :
    (engineLoop fuel e).mem.read a = e.mem.read a := by
  have hb : ∀ e : Engine, ¬ (e.work.op.toNat ≤ a ∧ a < e.work.op.toNat + e.work.rem.toNat) →
      (engineBlock e).mem.read a = e.mem.read a := fun e h => by
    simp only [engineBlock]
    exact read_xorInto_outside _ _ _ _ _ (by omega)
  induction fuel generalizing e with
  | zero => rfl
  | succ n ih =>
    simp only [engineLoop]
    split_ifs with h1 h2
    · rfl
    · exact hb e ha
    · have hop : (e.work.op + 64).toNat = e.work.op.toNat + 64 := by
        rw [BitVec.toNat_add, Nat.mod_eq_of_lt]; rfl
        have : (64 : Word).toNat = 64 := rfl
        have : memTop = 2 ^ 32 := rfl
        omega
      have hrem : (e.work.rem - 64).toNat = e.work.rem.toNat - 64 := by
        rw [BitVec.toNat_sub_of_le]; rfl
        rw [BitVec.le_def]
        have : (64 : Word).toNat = 64 := rfl
        omega
      rw [ih]
      · exact hb e ha
      · simp only [engineAdvance_op, engineAdvance_rem, engineBlock_op, engineBlock_rem, hop, hrem]; omega
      · simp only [engineAdvance_op, engineAdvance_rem, engineBlock_op, engineBlock_rem, hop, hrem]; omega

end Sys2Proof.Machine
end

