-- ==== Sys2Proof/Laws/Effect.lean ====
section
/-! SUPPORT. What the effect of every command keeps: the canonical form of the memory, the bytes outside its write footprint,
the other contexts; and the duties and the image of the snapshot commands. -/

namespace Sys2Proof.Machine

/-- A `SAVECTX` meets the duties exactly where its 64-byte image does. -/
theorem dutiesMet_savectx {s : State} {ctx : CtxNum} {addr : Word} :
    s.DutiesMet (.savectx ctx addr) ↔ s.PlainRange addr.toNat 64 :=
  ⟨fun h => h.2.1, fun h => ⟨State.plainRange_empty .., h, trivial⟩⟩

/-- A `LOADCTX` meets the duties exactly where its 64-byte image does. -/
theorem dutiesMet_loadctx {s : State} {ctx : CtxNum} {addr : Word} :
    s.DutiesMet (.loadctx ctx addr) ↔ s.PlainRange addr.toNat 64 :=
  ⟨fun h => h.1, fun h => ⟨h, State.plainRange_empty .., trivial⟩⟩

/-- The 64-byte image written keeps the canonical form. -/
theorem writeImage_wf {m : Memory} (h : Memory.wf m) {a : Nat} (ha : a + 64 ≤ memTop) (x : Block) :
    Memory.wf (m.writeBytes a (serialize x).toList) := by
  refine Memory.writeBytes_wf h ?_
  rw [Vector.length_toList]
  exact ha

/-- A byte read after a 64-byte image was written. -/
theorem read_writeImage {m : Memory} (h : Memory.wf m) {a : Nat} (ha : a + 64 ≤ memTop) (x : Block) (k : Nat) :
    (m.writeBytes a (serialize x).toList).read k =
      if a ≤ k ∧ k < a + 64 then (serialize x).toList.getD (k - a) 0 else m.read k := by
  rw [Memory.read_writeBytes h (by rw [Vector.length_toList]; exact ha), Vector.length_toList]

/-- Every effect keeps the canonical form of the memory. -/
theorem effect_mem_wf {s : State} {i : Instr} (hm : Memory.wf s.mem) (hd : s.DutiesMet i) : Memory.wf (effect i s).mem := by
  cases i with
  | setkey => exact hm
  | setiv => exact hm
  | process => exact (engineRun_spec hm _ hd).2.1
  | savectx ctx addr =>
    simp only [effect, State.completeOk_mem]
    exact writeImage_wf hm (dutiesMet_savectx.mp hd).1 _
  | loadctx => exact hm

/-- Every effect leaves the contexts it does not name alone. -/
theorem effect_ctxs_other {s : State} {i : Instr} {k : Nat} (hk : k ≠ i.ctx.toNat) :
    (effect i s).ctxs[k]? = s.ctxs[k]? := by
  cases i <;> simp only [Instr.ctx] at hk <;>
    simp [effect, Ne.symm hk]

/-- Every effect leaves the bytes outside the write footprint alone. -/
theorem effect_read_outside {s : State} {i : Instr} (hm : Memory.wf s.mem) (hd : s.DutiesMet i) {a : Nat}
    (ha : ¬ InRange (writeRange i) a) : (effect i s).mem.read a = s.mem.read a := by
  cases i with
  | setkey => rfl
  | setiv => rfl
  | process => exact ((engineRun_spec hm _ hd).2.2 a).trans (if_neg ha)
  | savectx ctx addr =>
    simp only [effect, State.completeOk_mem]
    exact (read_writeImage hm (dutiesMet_savectx.mp hd).1 _ a).trans (if_neg ha)
  | loadctx => rfl

end Sys2Proof.Machine
end

