-- ==== Sys2Proof/Laws/PerInstr.lean ====
section
/-! SUPPORT. Statements made per instruction. -/

namespace Sys2Proof.Laws.Fields

/-- The base-format fields of an instruction's word (R51, R52): its context number, and 0 in `RSV0`. -/
def Statement (i : Instr) : Prop := ctxOf (encode i) = i.ctx ∧ rsv0Of (encode i) = 0

theorem ctxOf_pack (op : BitVec 8) (ctx : CtxNum) (a b c : Word) : ctxOf (pack op ctx a b c) = ctx := by
  apply BitVec.eq_of_getLsbD_eq
  intro k hk
  simp only [ctxOf, pack, BitVec.getLsbD_extractLsb', BitVec.getLsbD_append, hk, decide_true, Bool.true_and]
  rw [if_neg (by omega), if_pos (by omega), show 8 + k - 8 = k by omega]

theorem rsv0Of_pack (op : BitVec 8) (ctx : CtxNum) (a b c : Word) : rsv0Of (pack op ctx a b c) = 0 := by
  apply BitVec.eq_of_getLsbD_eq
  intro k hk
  simp only [rsv0Of, pack, BitVec.getLsbD_extractLsb', BitVec.getLsbD_append, hk, decide_true, Bool.true_and]
  rw [if_neg (by omega), if_neg (by omega), if_pos (by omega)]
  simp

theorem setkey (ctx : CtxNum) (keyAddr keyLen : Word) : Statement (.setkey ctx keyAddr keyLen) :=
  ⟨ctxOf_pack .., rsv0Of_pack ..⟩

theorem setiv (ctx : CtxNum) (nonceAddr nonceLen counter : Word) : Statement (.setiv ctx nonceAddr nonceLen counter) :=
  ⟨ctxOf_pack .., rsv0Of_pack ..⟩

theorem process (ctx : CtxNum) (outAddr inAddr length : Word) : Statement (.process ctx outAddr inAddr length) :=
  ⟨ctxOf_pack .., rsv0Of_pack ..⟩

theorem savectx (ctx : CtxNum) (addr : Word) : Statement (.savectx ctx addr) := ⟨ctxOf_pack .., rsv0Of_pack ..⟩

theorem loadctx (ctx : CtxNum) (addr : Word) : Statement (.loadctx ctx addr) := ⟨ctxOf_pack .., rsv0Of_pack ..⟩

end Sys2Proof.Laws.Fields
end

