-- ==== Sys2Proof/Machine/Assembler.lean ====
section
/-! DEFINITION. The textual form of a command (spec 30_encoding R58) and the pseudo-instructions (R59). Used by no step: the
core sees only the 128 bits. -/

namespace Sys2Proof.Machine

/-! ## Pseudo-instructions, each an exact expansion (R59) -/

def setkey128 (ctx : CtxNum) (keyAddr : Word) : Instr := .setkey ctx keyAddr 16
def setkey256 (ctx : CtxNum) (keyAddr : Word) : Instr := .setkey ctx keyAddr 32
def setnonce (ctx : CtxNum) (nonceAddr counter : Word) : Instr := .setiv ctx nonceAddr 12 counter
def encrypt (ctx : CtxNum) (outAddr inAddr length : Word) : Instr := .process ctx outAddr inAddr length
def decrypt (ctx : CtxNum) (outAddr inAddr length : Word) : Instr := .process ctx outAddr inAddr length
def crypt (ctx : CtxNum) (addr length : Word) : Instr := .process ctx addr addr length

/-! ## One line of text (R58) -/

/-- A space or a tab. DESIGN CHOICE (log entry 21), safe: R58 does not say what separates the name from the operands. -/
def isBlank (c : Char) : Bool := c == ' ' || c == '\t'

def trimBlanks (t : List Char) : List Char := ((t.dropWhile isBlank).reverse.dropWhile isBlank).reverse

/-- "`;` starts a comment" (R58). -/
def dropComment (t : List Char) : List Char := t.takeWhile (fun c => c != ';')

/-- "operands separated by commas" (R58). -/
def splitCommas : List Char → List (List Char)
  | [] => [[]]
  | c :: t =>
    if c == ',' then [] :: splitCommas t
    else match splitCommas t with
      | [] => [[c]]
      | w :: ws => (c :: w) :: ws

/-- The value of a digit in a base of at most 16. -/
def digitValue (base : Nat) (c : Char) : Option Nat :=
  let v :=
    if '0'.toNat ≤ c.toNat ∧ c.toNat ≤ '9'.toNat then c.toNat - '0'.toNat
    else if 'a'.toNat ≤ c.toNat ∧ c.toNat ≤ 'f'.toNat then c.toNat - 'a'.toNat + 10
    else if 'A'.toNat ≤ c.toNat ∧ c.toNat ≤ 'F'.toNat then c.toNat - 'A'.toNat + 10
    else 16
  if v < base then some v else none

def digitsValue (base : Nat) : Nat → List Char → Option Nat
  | acc, [] => some acc
  | acc, c :: t =>
    match digitValue base c with
    | some v => digitsValue base (acc * base + v) t
    | none => none

/-- "numbers in decimal or `0x` hexadecimal" (R58). -/
def numberValue (t : List Char) : Option Nat :=
  match t with
  | [] => none
  | '0' :: 'x' :: [] => none
  | '0' :: 'x' :: c :: ds => digitsValue 16 0 (c :: ds)
  | c :: ds => digitsValue 10 0 (c :: ds)

/-- The numbers of an operand list; absent where one is no number. -/
def numbers : List (List Char) → Option (List Nat)
  | [] => some []
  | t :: ts =>
    match numberValue (trimBlanks t), numbers ts with
    | some v, some vs => some (v :: vs)
    | _, _ => none

/-- An operand of 32 bits; a number too large for its field has no encoding (R54). -/
def wordOperand (v : Nat) : Option Word := if v < 2 ^ 32 then some (BitVec.ofNat 32 v) else none

/-- The context operand, 8 bits (R54). -/
def ctxOperand (v : Nat) : Option CtxNum := if v < 2 ^ 8 then some (BitVec.ofNat 8 v) else none

/-- An instruction from its name and operands: the five commands (R58) and the six pseudo-instructions (R59). -/
def fromOperands (name : String) (ops : List Nat) : Option Instr :=
  match ops with
  | [c, a] =>
    match ctxOperand c, wordOperand a with
    | some c, some a =>
      if name = "SAVECTX" then some (.savectx c a)
      else if name = "LOADCTX" then some (.loadctx c a)
      else if name = "SETKEY128" then some (setkey128 c a)
      else if name = "SETKEY256" then some (setkey256 c a)
      else none
    | _, _ => none
  | [c, a, b] =>
    match ctxOperand c, wordOperand a, wordOperand b with
    | some c, some a, some b =>
      if name = "SETKEY" then some (.setkey c a b)
      else if name = "SETNONCE" then some (setnonce c a b)
      else if name = "CRYPT" then some (crypt c a b)
      else none
    | _, _, _ => none
  | [c, a, b, d] =>
    match ctxOperand c, wordOperand a, wordOperand b, wordOperand d with
    | some c, some a, some b, some d =>
      if name = "SETIV" then some (.setiv c a b d)
      else if name = "PROCESS" then some (.process c a b d)
      else if name = "ENCRYPT" then some (encrypt c a b d)
      else if name = "DECRYPT" then some (decrypt c a b d)
      else none
    | _, _, _, _ => none
  | _ => none

/-- The instruction a line of text stands for (R58, R59); absent where the line is none. `encode` gives its word. -/
def assembleLine (line : List Char) : Option Instr :=
  let t := trimBlanks (dropComment line)
  let name := t.takeWhile (fun c => !isBlank c)
  match numbers (splitCommas (t.dropWhile (fun c => !isBlank c))) with
  | some ops => fromOperands (String.ofList name) ops
  | none => none

end Sys2Proof.Machine
end

