-- ==== Sys2Proof/Tests/Slice0.lean ====
section
/-! SUPPORT. The model's own tests, their expected values from 95_test_vectors and from the tables of 30_encoding; then, for
every obligation with hypotheses, a concrete state and operands that meet all of them. -/

namespace Sys2Proof.Tests

open Sys2Proof Sys2Proof.Machine

/-! ## Helpers -/

/-- The next state, or `s` itself where the outcome is a stop. -/
def nextOr (s : State) (r : Result) : State :=
  match r with
  | .next t => t
  | .fault _ => s
  | .refused _ => s

def isNext (r : Result) : Bool :=
  match r with
  | .next _ => true
  | .fault _ => false
  | .refused _ => false

theorem next_of_isNext {s : State} {r : Result} (h : isNext r = true) : r = .next (nextOr s r) := by
  cases r with
  | next t => rfl
  | fault => cases h
  | refused => cases h

def faultOf (r : Result) : Option Fault :=
  match r with
  | .next _ => none
  | .fault f => some f
  | .refused _ => none

def refusalOf (r : Result) : Option Refusal :=
  match r with
  | .next _ => none
  | .fault _ => none
  | .refused f => some f

/-- The reset state of `n` contexts with bytes `bs` at `a` in memory. -/
def start (n a : Nat) (bs : List Byte) : State :=
  { State.resetWith n Config.default with mem := Memory.writeBytes [] a bs }

/-- `s` after command `i`. -/
def after (i : Instr) (s : State) : State := nextOr s (exec i s)

/-- Bytes `f 0, f 1, ..., f (n-1)`. -/
def bytesOf (n : Nat) (f : Nat → Nat) : List Byte := (List.range n).map (fun i => BitVec.ofNat 8 (f i))

def wordsOf (s : State) : List Word := (s.ctxAt 0).x.toList

/-! ## Well-formedness, one ill-formed term for the one check (R53, R129) -/

theorem test_wf_refuses_savectx_without_snapshot : Instr.wf false (.savectx 0 0x4000) = false := by decide
theorem test_wf_refuses_loadctx_without_snapshot : Instr.wf false (.loadctx 0 0x4000) = false := by decide

/-! ## Decoding (95_test_vectors section 8; fields written out from R51 and R52) -/

theorem test_decode_setkey :
    decode true 0x00000000_00000020_00001000_00000001 = .ok (.setkey 0 0x1000 32) := by decide
theorem test_decode_setiv :
    decode true 0x00000001_0000000c_00001040_00000002 = .ok (.setiv 0 0x1040 12 1) := by decide
theorem test_decode_process :
    decode true 0x00000046_00002001_00002001_00000003 = .ok (.process 0 0x2001 0x2001 70) := by decide
theorem test_decode_savectx :
    decode true 0x00000000_00000000_00004000_00000004 = .ok (.savectx 0 0x4000) := by decide
theorem test_decode_loadctx :
    decode true 0x00000000_00000000_00004000_00000005 = .ok (.loadctx 0 0x4000) := by decide

/-- Every field of one command, each bit group different. -/
theorem test_decode_setiv_fields :
    decode false 0x80000001_40000002_20000004_0000a502 =
      .ok (.setiv 0xa5 0x20000004 0x40000002 0x80000001) := by decide

theorem test_illegal_rsv0 : decode true 0x00000000_00000000_00000000_00010003 = .error .reserved0 := by decide
theorem test_illegal_setkey_c : decode true 0x00000005_00000020_00000000_00000001 = .error .reservedOperand := by decide
theorem test_illegal_savectx_c : decode true 0x00000001_00000000_00000000_00000004 = .error .reservedOperand := by decide
theorem test_illegal_loadctx_b : decode true 0x00000000_00000004_00000000_00000005 = .error .reservedOperand := by decide
theorem test_illegal_opcode_00 : decode true 0 = .error .opcode := by decide
theorem test_illegal_opcode_06 : decode true 0x06 = .error .opcode := by decide
theorem test_illegal_opcode_ff : decode true 0xff = .error .opcode := by decide
theorem test_illegal_all_ones : ∃ r, decode true (BitVec.allOnes 128) = .error r := ⟨.reserved0, by decide⟩
theorem test_illegal_no_snapshot :
    decode false 0x00000000_00000000_00004000_00000004 = .error .noSnapshot := by decide

/-- The example of R58. -/
theorem test_assemble_process :
    (assembleLine "PROCESS 0, 0x3000, 0x2000, 114 ; P1".toList).map encode =
      some 0x00000072_00002000_00003000_00000003 := by decide
/-- Two pseudo-instructions of R59. -/
theorem test_assemble_pseudo :
    (assembleLine "CRYPT 0, 0x2001, 70".toList).map encode = some 0x00000046_00002001_00002001_00000003 ∧
    (assembleLine "SETKEY128 0, 0x1000".toList).map encode = some 0x00000000_00000010_00001000_00000001 := by decide

/-! ## Primitives and the permutation (95_test_vectors sections 2 and 3) -/

theorem test_rotl32 : rotl32 0x12345678 16 = 0x56781234 ∧ rotl32 0x12345678 12 = 0x45678123 ∧
    rotl32 0x12345678 8 = 0x34567812 ∧ rotl32 0x12345678 7 = 0x1a2b3c09 := by decide
theorem test_le32 : le32 0x78 0x56 0x34 0x12 = 0x12345678 := by decide
theorem test_bytesLE : bytesLE 0xe4e7f110 = #v[0x10, 0xf1, 0xe7, 0xe4] := by decide
theorem test_qr : qr 0x879531e0 0xc5ecf37d 0x516461b1 0xc9a62f8a =
    (0xbeecaefa, 0x06268a73, 0x9766c489, 0x3b2adeb4) := by decide

/-- The state S of section 3. -/
def stateS : Block := #v[
  0x61707865, 0x3320646e, 0x79622d32, 0x6b206574, 0x03020100, 0x07060504, 0x0b0a0908, 0x0f0e0d0c,
  0x13121110, 0x17161514, 0x1b1a1918, 0x1f1e1d1c, 0x00000001, 0x09000000, 0x4a000000, 0x00000000]

theorem test_colRound : colRound stateS = #v[
    0xabbaa25c, 0x1efa51ea, 0x7354fbdf, 0x83d2dc69, 0x3a465196, 0x1c7e64f6, 0xb12fb628, 0xf05b6976,
    0x6b3ca454, 0x08eb14b1, 0xbf8a9ac9, 0xe444df3b, 0xdec62ed2, 0x8862cc77, 0x6e35b345, 0x52a647f1] := by decide
theorem test_doubleRound : doubleRound stateS = #v[
    0xcd52e917, 0x85ab03b4, 0xb3457395, 0xf96de7dd, 0xc4b7cd22, 0x5c2e187a, 0xc95eb461, 0x316c801a,
    0x7bf7d740, 0x7eddd644, 0xf1a1bdf5, 0x761246ca, 0x6b0d58a3, 0x6798471a, 0xd737f167, 0xf173888d] := by decide
theorem test_lrot : lrot (rowOf (colRound stateS) 3) 3 = #v[0x52a647f1, 0xdec62ed2, 0x8862cc77, 0x6e35b345] := by decide

set_option maxRecDepth 100000 in
theorem test_block : block stateS = #v[
    0xe4e7f110, 0x15593bd1, 0x1fdd0f50, 0xc47120a3, 0xc7f4d1c7, 0x0368c033, 0x9aaa2204, 0x4e6cd4c3,
    0x466482d2, 0x09aa9f07, 0x05d7c214, 0xa2028bd9, 0xd19c12b5, 0xb94e16de, 0xe883d0cb, 0x4e3c50a2] := by decide

/-! ## The commands, one step each -/

/-- Section 4: an unaligned 32-byte key. -/
theorem test_setkey_unaligned :
    let t := after (.setkey 0 0x1001 32) (start 1 0x1001 (bytesOf 32 (fun i => 0xf0 + i)))
    wordsOf t = [0x61707865, 0x3320646e, 0x79622d32, 0x6b206574, 0xf3f2f1f0, 0xf7f6f5f4, 0xfbfaf9f8, 0xfffefdfc,
      0x03020100, 0x07060504, 0x0b0a0908, 0x0f0e0d0c, 0, 0, 0, 0] ∧ t.statusWord = 2 := by decide
/-- Section 4: a 16-byte key, replicated. -/
theorem test_setkey_16 :
    wordsOf (after (.setkey 0 0x1000 16) (start 1 0x1000 (bytesOf 16 id))) =
      [0x61707865, 0x3120646e, 0x79622d36, 0x6b206574, 0x03020100, 0x07060504, 0x0b0a0908, 0x0f0e0d0c,
        0x03020100, 0x07060504, 0x0b0a0908, 0x0f0e0d0c, 0, 0, 0, 0] := by decide

/-- Section 4: the counter is not byte-swapped, the nonce is. -/
theorem test_setiv :
    let t := after (.setiv 0 0x1040 12 0xffffffff) (start 1 0x1040 (bytesOf 12 (fun i => i + 1)))
    wordsOf t = [0, 0, 0, 0, 0, 0, 0, 0, 0, 0, 0, 0, 0xffffffff, 0x04030201, 0x08070605, 0x0c0b0a09] ∧
      t.ctxFlagsWord = 0x00010000 := by decide
/-- P3, command 2: an 11-byte nonce. -/
theorem test_setiv_length :
    let t := after (.setiv 0 0x1040 11 7) (start 1 0x1040 (bytesOf 12 (fun i => i + 1)))
    wordsOf t = List.replicate 16 0 ∧ t.statusWord = 0x3e := by decide

/-- A context holding `x`, the words given. -/
def withWords (x : Block) (s : State) : State := { s with ctxs := [{ x := x, keyed := true, ivset := true }] }

/-- Section 1's context, the counter given. -/
def zeroKey (ctr : Word) : Block := #v[
  0x61707865, 0x3320646e, 0x79622d32, 0x6b206574, 0, 0, 0, 0, 0, 0, 0, 0, ctr, 0, 0, 0]

set_option maxRecDepth 100000 in
/-- Section 5: non-zero input, five bytes, in place. -/
theorem test_process_five_bytes :
    let t := after (.process 0 0x2000 0x2000 5) (withWords (zeroKey 0) (start 1 0x2000 [0x07, 0x0a, 0x0d, 0x10, 0x13]))
    t.mem.readBytes 0x2000 6 = [0x71, 0xb2, 0xed, 0xbd, 0xb3, 0] ∧ wordsOf t = (zeroKey 1).toList := by decide

set_option maxRecDepth 100000 in
/-- Section 5: the counter wraps inside a command; bytes 0, 63, 64 and the guard after them. -/
theorem test_process_counter_wrap :
    let t := after (.process 0 0x3000 0x2000 65) (withWords (zeroKey 0xffffffff) (start 1 0x3041 [0xa5]))
    (t.mem.read 0x3000 = 0xac ∧ t.mem.read 0x303f = 0x1d ∧ t.mem.read 0x3040 = 0x76 ∧ t.mem.read 0x3041 = 0xa5) ∧
      wordsOf t = (zeroKey 1).toList ∧ t.statusWord = 2 := by decide

/-- P4, command 4: bytes 0 to 3 and 48 of the image. -/
theorem test_savectx :
    let t := after (.savectx 0 0x4000) (withWords (zeroKey 1) (start 1 0 []))
    t.mem.readBytes 0x4000 4 = [0x65, 0x78, 0x70, 0x61] ∧ t.mem.readBytes 0x4030 2 = [1, 0] := by decide
/-- P3, variant with `SNAPSHOT_EN` = 0. -/
theorem test_savectx_disabled :
    let s := { start 1 0 [] with cfg := { Config.default with snapshotEn := false } }
    (nextOr s (runCommand 0x00000000_00000000_00004000_00000004 s)).statusWord = 0x4e := by decide
/-- R126: words little-endian, both flags set. -/
theorem test_loadctx :
    let t := after (.loadctx 0 0x4000) (start 1 0x4000 (bytesOf 64 id))
    (wordsOf t).head? = some 0x03020100 ∧ (wordsOf t).getLast? = some 0x3f3e3d3c ∧ t.ctxFlagsWord = 0x00010001 := by
  decide

/-- P3: causes 1, 2 and 4 on a core of one context, in the order of R133. -/
theorem test_causes :
    (after (.process 1 0x3000 0x2000 64) (start 1 0 [])).statusWord = 0x1e ∧
    (after (.setkey 0 0x1000 24) (start 1 0 [])).statusWord = 0x2e ∧
    (after (.setkey 1 0x1000 24) (start 1 0 [])).statusWord = 0x1e ∧
    (nextOr State.reset (runCommand 0x00000106 State.reset)).statusWord = 0x4e := by decide

/-- Section 8: `STATUS` while a command executes, with and without an earlier failure. -/
theorem test_status_busy :
    (State.reset.accept 0).statusWord = 0x1 ∧ ((State.reset.completeErr .keyLen).accept 0).statusWord = 0x9 := by decide

/-- The host's duties, each broken once: R43, R38, R44, R42. -/
theorem test_duties :
    refusalOf (exec (.loadctx 0 0xffffffc1) State.reset) = some .rangeWraps ∧
    refusalOf (exec (.loadctx 0 0) { State.reset with platform := [⟨63, 1, .device⟩, ⟨0, memTop, .plain⟩] }) =
      some .deviceMemory ∧
    faultOf (exec (.loadctx 0 0) { State.reset with platform := [⟨0, 63, .plain⟩] }) = some .notAdmitted ∧
    refusalOf (exec (.process 0 0x2001 0x2000 2) State.reset) = some .partialOverlap := by decide

/-- A word run as the first command after reset (P1, command 1). -/
theorem test_withFetchWord :
    (nextOr State.reset (step (State.reset.withFetchWord 128 0x00000000_00000020_00001000_00000001))).statusWord = 2 := by
  decide

/-! ## Witnesses: the hypotheses of each obligation, met by a concrete state and operands -/

/-- Two contexts, both parameters at the default, the command `d` captured, the host about to do `acts`. -/
def flight (d : Command) (acts : List HostAct) : State :=
  { State.resetWith 2 Config.default with captured := some d, host := acts }

def cmdSetkey : Command := 0x00000000_00000010_00001000_00000001
def cmdSetiv : Command := 0x00000001_0000000c_00001040_00000002
def cmdProcess : Command := 0x00000001_00002000_00003000_00000003
def cmdSavectx : Command := 0x00000000_00000000_00004000_00000004
def cmdLoadctx : Command := 0x00000000_00000000_00004000_00000005

theorem witness_DecodeOfEncodeIsIdentity :
    Instr.wf true (.savectx 255 0xffffffff) = true ∧ Instr.wf false (.setiv 255 0xffffffff 0xffffffff 0xffffffff) = true := by
  decide

theorem witness_DecodedCommandReencodes :
    decode false 0xffffffff_ffffffff_ffffffff_0000ff03 = .ok (.process 255 0xffffffff 0xffffffff 0xffffffff) := by decide

theorem witness_DecodeIsMaskAndMatch : Instr.wf true (.loadctx 0 0) = true ∧ Instr.wf false (.setkey 0 0 0) = true := by
  decide

/-- One command for each way to be illegal. -/
theorem witness_IllegalCommandsFailWithCauseFour :
    (flight 0 []).hostWaits = true ∧ (flight 0 []).captured = some 0 ∧
    decode true 0 = .error .opcode ∧ decode true 0x06 = .error .opcode ∧ decode true 0xff = .error .opcode ∧
    decode false 0x04 = .error .noSnapshot ∧ decode true 0x80000001 = .error .reserved0 ∧
    decode true (1 <<< 96 ||| 0x01) = .error .reservedOperand ∧
    decode true (1 <<< 64 ||| 0x05) = .error .reservedOperand := by decide

theorem witness_StepRunsCapturedCommand :
    (flight cmdProcess [.present 0]).hostWaits = true ∧ (flight cmdProcess [.present 0]).captured = some cmdProcess ∧
    decode true cmdProcess = .ok (.process 0 0x3000 0x2000 1) ∧
    (flight cmdLoadctx [.awaitDone]).hostWaits = true ∧ decode true cmdLoadctx = .ok (.loadctx 0 0x4000) := by decide

theorem witness_AcceptanceCapturesCommand :
    let s := { State.reset with host := [.present cmdSetkey, .awaitDone] }
    s.host = .present cmdSetkey :: [.awaitDone] ∧ s.cmdReady = true := by decide

theorem witness_CompletionAndAcceptanceSetStatus :
    State.reset.checkCommand (.savectx 0 0x4000) = none ∧
    exec (.savectx 0 0x4000) State.reset = .next (after (.savectx 0 0x4000) State.reset) ∧
    ({ State.reset with host := [.present 0] }).host = .present 0 :: [] ∧
    ({ State.reset with host := [.present 0] }).cmdReady = true :=
  ⟨by decide, next_of_isNext (by decide), rfl, rfl⟩

theorem witness_SecondCommandWaitsOnPort :
    let s := flight cmdSetkey [.present cmdSetiv]
    s.captured = some cmdSetkey ∧ s.host = .present cmdSetiv :: [] ∧ step s = .next (nextOr s (step s)) :=
  ⟨rfl, rfl, next_of_isNext (by decide)⟩

theorem witness_IdleCoreKeepsState : State.reset.host = [] ∧ State.reset.captured = none := by decide

/-- A 32-byte key at the last addresses of the memory, and a 16-byte one at address 0. -/
theorem witness_SetkeyLoadsKeyAndConstants :
    let s := start 2 0xffffffe0 (bytesOf 32 (fun i => i + 1))
    s.ctxs[(0 : CtxNum).toNat]? = some (s.ctxAt 0) ∧ s.PlainRange (0xffffffe0 : Word).toNat (32 : Word).toNat ∧
    s.ctxs[(1 : CtxNum).toNat]? = some (s.ctxAt 1) ∧ s.PlainRange (0 : Word).toNat (16 : Word).toNat := by decide

theorem witness_SetivLoadsCounterAndNonce :
    let s := start 1 0xfffffff4 (bytesOf 12 (fun i => i + 1))
    s.ctxs[(0 : CtxNum).toNat]? = some (s.ctxAt 0) ∧ s.PlainRange (0xfffffff4 : Word).toNat 12 := by decide

theorem witness_SchedulerBuildsInitialState :
    let s := start 1 0x1000 (bytesOf 32 id)
    s.ctxs[(0 : CtxNum).toNat]? = some (s.ctxAt 0) ∧ s.PlainRange (0x1000 : Word).toNat (32 : Word).toNat ∧
    s.PlainRange (0x1000 : Word).toNat (16 : Word).toNat ∧ s.PlainRange (0x1010 : Word).toNat 12 := by decide

/-- In place to the last address, two ranges that touch, and no byte at all. -/
theorem witness_ProcessClosedForm :
    let s := start 1 0x2000 (bytesOf 65 id)
    Memory.wf s.mem ∧ s.ctxs[(0 : CtxNum).toNat]? = some (s.ctxAt 0) ∧
    s.PlainRange (0xffffffbf : Word).toNat (65 : Word).toNat ∧ SupportedOverlap 0xffffffbf 0xffffffbf 65 ∧
    s.PlainRange (0x2000 : Word).toNat (65 : Word).toNat ∧ s.PlainRange (0x2041 : Word).toNat (65 : Word).toNat ∧
    SupportedOverlap 0x2041 0x2000 65 ∧ SupportedOverlap 0x1fbf 0x2000 65 ∧
    s.PlainRange (0x2000 : Word).toNat (0 : Word).toNat ∧ SupportedOverlap 0x2001 0x2000 0 := by decide

theorem witness_ProcessOfZeroLengthIsNoOp :
    (0 : CtxNum).toNat < State.reset.nctx ∧ State.reset.nctx ≤ (1 : CtxNum).toNat ∧
    State.reset.nctx ≤ (255 : CtxNum).toNat := by decide

theorem witness_ProcessOnZeroWordsCopies :
    let s := start 1 0x2000 [0x41, 0x42, 0x43, 0x44]
    Memory.wf s.mem ∧ s.ctxs[(0 : CtxNum).toNat]? = some Context.cleared ∧ Context.cleared.x = Vector.replicate 16 0 ∧
    0 < (64 : Word).toNat ∧ (64 : Word).toNat ≤ 64 ∧ 0 < (1 : Word).toNat ∧
    s.PlainRange (0x2000 : Word).toNat (64 : Word).toNat ∧ s.PlainRange (0x3000 : Word).toNat (64 : Word).toNat ∧
    SupportedOverlap 0x3000 0x2000 64 := by decide

/-- Lengths 64 and 36, as in 95_test_vectors section 6, and the two empty pieces. -/
theorem witness_ProcessSplitsAtBlockBoundaries :
    let s := start 1 0x2000 (bytesOf 4 id)
    Memory.wf s.mem ∧ (64 : Word).toNat % 64 = 0 ∧ (64 : Word).toNat + (36 : Word).toNat < 2 ^ 32 ∧
    (0 : CtxNum).toNat < s.nctx ∧ (0 : Word).toNat % 64 = 0 ∧
    s.DutiesMet (.process 0 0x3000 0x2000 (64 + 36)) ∧ s.DutiesMet (.process 0 0x2000 0x2000 (0 + 0)) := by decide

set_option maxRecDepth 100000 in
/-- Context 0 enciphers four bytes; the second machine holds the same words in its context 1 and the first one's output in its
memory, and takes it back to another address or in place. -/
theorem witness_ProcessIsAnInvolution :
    let s := { start 2 0x2000 [0x41, 0x42, 0x43, 0x44] with
      ctxs := List.replicate 2 { x := zeroKey 0, keyed := true, ivset := true } }
    let t := after (.process 0 0x3000 0x2000 4) s
    let u := { s with mem := t.mem }
    let c : Context := { x := zeroKey 0, keyed := true, ivset := true }
    Memory.wf s.mem ∧ Memory.wf u.mem ∧ s.ctxs[(0 : CtxNum).toNat]? = some c ∧ u.ctxs[(1 : CtxNum).toNat]? = some c ∧
    s.DutiesMet (.process 0 0x3000 0x2000 4) ∧ u.DutiesMet (.process 1 0x4000 0x3000 4) ∧
    u.DutiesMet (.process 1 0x3000 0x3000 4) ∧
    exec (.process 0 0x3000 0x2000 4) s = .next t ∧
    (∀ j, j < (4 : Word).toNat → u.mem.read ((0x3000 : Word).toNat + j) = t.mem.read ((0x3000 : Word).toNat + j)) ∧
    u.mem.read 0x3000 ≠ s.mem.read 0x2000 :=
  ⟨by decide, by decide, by decide, by decide, by decide, by decide, by decide, next_of_isNext (by decide), fun _ _ => rfl,
    by decide⟩

theorem witness_SavectxWritesImage :
    Memory.wf State.reset.mem ∧ State.reset.cfg.snapshotEn = true ∧
    State.reset.ctxs[(0 : CtxNum).toNat]? = some Context.cleared ∧
    State.reset.PlainRange (0xffffffc0 : Word).toNat 64 := by decide

theorem witness_LoadctxReadsImage :
    State.reset.cfg.snapshotEn = true ∧ (0 : CtxNum).toNat < State.reset.nctx ∧
    State.reset.PlainRange (0xffffffc0 : Word).toNat 64 := by decide

/-- The second machine is the first one right after the save, its 64 bytes unchanged. -/
theorem witness_SnapshotRestoresWords :
    let s := start 2 0x4000 (bytesOf 64 id)
    Memory.wf s.mem ∧ s.cfg.snapshotEn = true ∧ s.ctxs[(0 : CtxNum).toNat]? = some Context.cleared ∧
    (1 : CtxNum).toNat < s.nctx ∧ s.PlainRange (0x4000 : Word).toNat 64 ∧ s.PlainRange (0x5000 : Word).toNat 64 ∧
    (∀ i, i < 64 → (after (.savectx 0 0x4000) s).mem.read (0x4000 + i) = 0) := by decide

/-- One command for each cause. -/
theorem witness_FailingCommandChangesOnlyStatus :
    State.reset.checkCommand (.process 1 0 0 0) = some .ctxAbsent ∧
    State.reset.checkCommand (.setkey 0 0x1000 24) = some .keyLen ∧
    State.reset.checkCommand (.setiv 0 0x1040 11 0) = some .nonceLen ∧
    ({ State.reset with cfg := { Config.default with snapshotEn := false } }).checkCommand (.loadctx 0 0) =
      some .illegalCmd := by decide

/-- Each clause at a boundary: contexts 1 and 0 of a core of one, lengths 15, 11, 16 and 12. -/
theorem witness_ChecksReportTheFirstFailure :
    decode true 0x06 = .error .opcode ∧
    decode true 0x103 = .ok (.process 1 0 0 0) ∧ State.reset.nctx ≤ (1 : CtxNum).toNat ∧
    decode true (15 <<< 64 ||| 0x01) = .ok (.setkey 0 0 15) ∧ (0 : CtxNum).toNat < State.reset.nctx ∧
    decode true (11 <<< 64 ||| 0x02) = .ok (.setiv 0 0 11 0) ∧
    decode true (16 <<< 64 ||| 0x01) = .ok (.setkey 0 0 16) ∧
    exec (.setkey 0 0 16) State.reset = .next (after (.setkey 0 0 16) State.reset) ∧
    decode true (12 <<< 64 ||| 0x02) = .ok (.setiv 0 0 12 0) ∧
    exec (.setiv 0 0 12 0) State.reset = .next (after (.setiv 0 0 12 0) State.reset) :=
  ⟨by decide, by decide, by decide, by decide, by decide, by decide, by decide, next_of_isNext (by decide),
    by decide, next_of_isNext (by decide)⟩

theorem witness_SnapshotDisabledFailsWithCauseFour :
    ({ State.reset with cfg := { Config.default with snapshotEn := false } }).cfg.snapshotEn = false := by decide

/-- An error and none; `SERR` 0 and 1. -/
theorem witness_StatusRegisterLayout :
    State.reset.status.error = none ∧ State.reset.status.serr = false ∧
    (State.reset.completeErr .keyLen).status.error = some .keyLen ∧
    (State.reset.completeErr .keyLen).status.serr = true := by decide

theorem witness_ConfigRegisterIsConstant :
    (State.resetWith 16 Config.default).nctx ≤ 16 ∧ step State.reset = .next State.reset := ⟨by decide, rfl⟩

/-- Context 15 of a core of sixteen; context 15 of a core of fifteen. -/
theorem witness_CtxFlagsRegisterBits :
    (State.resetWith 16 Config.default).ctxs[15]? = some Context.cleared ∧
    (State.resetWith 15 Config.default).nctx ≤ 15 := by decide

theorem witness_StatusReadHasNoSideEffect :
    (flight cmdProcess [.readStatus 3]).host = .readStatus 3 :: [] ∧
    ({ State.reset with host := [.readStatus 0] }).host = .readStatus 0 :: [] := by decide

theorem witness_StepKeepsInvariant :
    let s := flight cmdSavectx []
    s.Inv ∧ step s = .next (nextOr s (step s)) := ⟨by decide, next_of_isNext (by decide)⟩

theorem witness_ResetMeetsInvariant : (State.resetWith 1 Config.default).nctx = 1 ∧
    (State.resetWith 16 Config.default).nctx = 16 := by decide

theorem witness_OtherContextsUntouched :
    let s := State.resetWith 2 Config.default
    exec (.setkey 1 0x1000 16) s = .next (after (.setkey 1 0x1000 16) s) ∧ 0 ≠ (Instr.setkey 1 0x1000 16).ctx.toNat :=
  ⟨next_of_isNext (by decide), by decide⟩

/-- A state in which `d` is in flight on context 0, bytes 1, 2, 3, ... at the addresses the command reads. -/
def loaded (d : Command) : State :=
  { start 1 0x1000 (bytesOf 76 (fun i => i + 1)) with captured := some d }

/-- A word changes in each of the four commands that change one. -/
theorem witness_WordsWrittenOnlyByTheirCommands :
    (∀ d ∈ [cmdSetkey, cmdSetiv, cmdLoadctx], step (loaded d) = .next (nextOr (loaded d) (step (loaded d)))) ∧
    (loaded 0).hostResets = false ∧ (loaded 0).ctxs[0]? = some Context.cleared ∧
    ((nextOr (loaded 0) (step (loaded cmdSetkey))).ctxAt 0).x[11] ≠ Context.cleared.x[11] ∧
    ((nextOr (loaded 0) (step (loaded cmdSetiv))).ctxAt 0).x[12] ≠ Context.cleared.x[12] ∧
    ((nextOr (loaded 0) (step (loaded (0x00001000_00000005)))).ctxAt 0).x[15] ≠ Context.cleared.x[15] := by
  refine ⟨?_, by decide, by decide, by decide, by decide, by decide⟩
  intro d hd
  fin_cases hd <;> exact next_of_isNext (by decide)

set_option maxRecDepth 100000 in
/-- `PROCESS` changes word 12 of its context. -/
theorem witness_WordsWrittenOnlyByTheirCommands_process :
    let s := loaded cmdProcess
    step s = .next (nextOr s (step s)) ∧ (nextOr s (step s)).ctxs[0]? = some ((nextOr s (step s)).ctxAt 0) ∧
    ((nextOr s (step s)).ctxAt 0).x[12] ≠ Context.cleared.x[12] :=
  ⟨next_of_isNext (by decide), by decide, by decide⟩

/-- Each flag set, by `SETKEY`, `SETIV` and `LOADCTX`; each kept by the next command. -/
theorem witness_FlagsSetByCommandsClearedByReset :
    let s := flight cmdSetkey []
    let t := nextOr s (step s)
    let u := nextOr s (step { t with captured := some cmdSetiv })
    step s = .next t ∧ s.hostResets = false ∧
    s.flagAt (fun c => c.keyed) 0 = false ∧ t.flagAt (fun c => c.keyed) 0 = true ∧
    t.flagAt (fun c => c.ivset) 0 = false ∧ u.flagAt (fun c => c.ivset) 0 = true ∧ u.flagAt (fun c => c.keyed) 0 = true :=
  ⟨next_of_isNext (by decide), by decide, by decide, by decide, by decide, by decide, by decide⟩

theorem witness_StickyErrorStaysUntilReset :
    let s := State.reset.completeErr .keyLen
    step s = .next s ∧ s.hostResets = false ∧ s.status.serr = true := ⟨rfl, by decide, by decide⟩

theorem witness_WritesStayInFootprint :
    exec (.savectx 0 0x4000) State.reset = .next (after (.savectx 0 0x4000) State.reset) ∧
    State.reset.checkCommand (.savectx 1 0x4000) ≠ none ∧
    exec (.savectx 1 0x4000) State.reset = .next (after (.savectx 1 0x4000) State.reset) :=
  ⟨next_of_isNext (by decide), by decide, next_of_isNext (by decide)⟩

/-- Two memories that agree on the 16 key bytes and differ after them. -/
theorem witness_ResultDependsOnlyOnReadFootprint :
    let s := start 1 0x1000 (bytesOf 17 (fun i => i + 1))
    let m : Memory := Memory.writeBytes [] 0x1000 (bytesOf 16 (fun i => i + 1))
    Memory.wf s.mem ∧ Memory.wf m ∧ s.checkCommand (.setkey 0 0x1000 16) = none ∧
    s.DutiesMet (.setkey 0 0x1000 16) ∧
    (∀ j, j < 16 → m.read (0x1000 + j) = s.mem.read (0x1000 + j)) ∧ m.read 0x1010 ≠ s.mem.read 0x1010 := by decide

theorem witness_AcceptedCommandCompletes :
    let s := flight cmdSavectx [.awaitDone]
    s.hostWaits = true ∧ s.captured = some cmdSavectx ∧ decode s.cfg.snapshotEn cmdSavectx = .ok (.savectx 0 0x4000) ∧
    s.DutiesMet (.savectx 0 0x4000) := by decide

/-- A memory of two regions: plain below 0x2000, a device from 0x2000 to 0x2fff, nothing above. -/
def island : State := { State.reset with platform := [⟨0, 0x2000, .plain⟩, ⟨0x2000, 0x1000, .device⟩] }

/-- The clauses one by one: the checks pass; a range ends one past the top; a device byte last; an address not admitted
last; a partial overlap by one byte. -/
theorem witness_StopsOnlyOnBrokenDuties :
    State.reset.checkCommand (.loadctx 0 0xffffffc1) = none ∧
    memTop < (readRange (.loadctx 0 0xffffffc1)).1 + (readRange (.loadctx 0 0xffffffc1)).2 ∧
    State.reset.checkCommand (.savectx 0 0xffffffc1) = none ∧
    State.reset.PlainRange (readRange (.savectx 0 0xffffffc1)).1 (readRange (.savectx 0 0xffffffc1)).2 ∧
    memTop < (writeRange (.savectx 0 0xffffffc1)).1 + (writeRange (.savectx 0 0xffffffc1)).2 ∧
    island.checkCommand (.loadctx 0 0x1fc1) = none ∧ island.kindAt (0x1fc1 + 63) = some .device ∧
    island.kindAt (0x2fff + 1) = none ∧ island.kindAt 0x3fff = none ∧
    (∀ j, j < 64 → island.kindAt (0x3000 + j) ≠ some .device) ∧
    State.reset.PlainRange (0x2000 : Word).toNat (2 : Word).toNat ∧
    State.reset.PlainRange (0x2001 : Word).toNat (2 : Word).toNat ∧ ¬ SupportedOverlap 0x2001 0x2000 2 := by decide

/-- The address clauses for the write range, the device or the address not admitted being its last byte: the image of a
`SAVECTX`, and the output of a `PROCESS` whose input is plain. -/
theorem witness_StopsOnlyOnBrokenDuties_writeRange :
    let gap : State := { State.reset with platform := [⟨0, 0x2000, .plain⟩] }
    island.checkCommand (.savectx 0 0x1fc1) = none ∧ island.PlainRange (readRange (.savectx 0 0x1fc1)).1 0 ∧
    (writeRange (.savectx 0 0x1fc1)).1 + (writeRange (.savectx 0 0x1fc1)).2 ≤ memTop ∧
    63 < (writeRange (.savectx 0 0x1fc1)).2 ∧ island.kindAt ((writeRange (.savectx 0 0x1fc1)).1 + 63) = some .device ∧
    refusalOf (exec (.savectx 0 0x1fc1) island) = some .deviceMemory ∧
    gap.checkCommand (.process 0 0x1ffe 0x1000 3) = none ∧
    gap.PlainRange (readRange (.process 0 0x1ffe 0x1000 3)).1 (readRange (.process 0 0x1ffe 0x1000 3)).2 ∧
    (writeRange (.process 0 0x1ffe 0x1000 3)).1 + (writeRange (.process 0 0x1ffe 0x1000 3)).2 ≤ memTop ∧
    2 < (writeRange (.process 0 0x1ffe 0x1000 3)).2 ∧
    gap.kindAt ((writeRange (.process 0 0x1ffe 0x1000 3)).1 + 2) = none ∧
    (∀ j, j < (writeRange (.process 0 0x1ffe 0x1000 3)).2 →
      gap.kindAt ((writeRange (.process 0 0x1ffe 0x1000 3)).1 + j) ≠ some .device) ∧
    faultOf (exec (.process 0 0x1ffe 0x1000 3) gap) = some .notAdmitted := by decide

/-- A `PROCESS` that breaks the overlap duty and an address duty at once takes the stop of the address (log entry 10). -/
theorem test_overlap_is_tested_last :
    refusalOf (exec (.process 0 0x1fff 0x1ffe 2) island) = some .deviceMemory := by decide

/-- The command in flight is the one captured. -/
theorem flight_decodes {d e : Command} {i j : Instr} (hd : some d = some e) (hi : decode true e = .ok i)
    (hj : decode true d = .ok j) : i = j := by
  injection hd with hd
  subst hd
  rw [hi] at hj
  injection hj

/-- The first and the last byte of each footprint. -/
theorem witness_HostRaceIsRefused :
    let s := flight cmdLoadctx [.store 0x403f 1]
    let u := flight cmdSavectx [.load 0x4000]
    decode s.cfg.snapshotEn cmdLoadctx = .ok (.loadctx 0 0x4000) ∧ s.checkCommand (.loadctx 0 0x4000) = none ∧
    s.host = .store 0x403f 1 :: [] ∧ InRange (readRange (.loadctx 0 0x4000)) (0x403f : Word).toNat ∧
    u.host = .load 0x4000 :: [] ∧ u.checkCommand (.savectx 0 0x4000) = none ∧
    InRange (writeRange (.savectx 0 0x4000)) (0x4000 : Word).toNat := by decide

theorem illegal_not_decoded {i : Instr} (h : decode true 0x06 = .ok i) : False := by
  rw [show decode true 0x06 = .error .opcode by decide] at h
  cases h

/-- The last address with the core idle; the byte after the image of a `LOADCTX` in flight; any byte with a failing command in
flight. -/
theorem witness_HostStoreWritesOneByte :
    let s := { State.reset with host := [.store 0xffffffff 0] }
    let u := flight cmdLoadctx [.store 0x4040 7]
    let v := flight 0x06 [.store 0x4000 7]
    (Memory.wf s.mem ∧ s.host = .store 0xffffffff 0 :: [] ∧ s.kindAt (0xffffffff : Word).toNat = some .plain ∧
      ∀ d i, s.captured = some d → decode s.cfg.snapshotEn d = .ok i → s.checkCommand i = none →
        ¬ InRange (readRange i) (0xffffffff : Word).toNat ∧ ¬ InRange (writeRange i) (0xffffffff : Word).toNat) ∧
    (Memory.wf u.mem ∧ u.host = .store 0x4040 7 :: [] ∧ u.kindAt (0x4040 : Word).toNat = some .plain ∧
      u.captured = some cmdLoadctx ∧
      ∀ d i, u.captured = some d → decode u.cfg.snapshotEn d = .ok i → u.checkCommand i = none →
        ¬ InRange (readRange i) (0x4040 : Word).toNat ∧ ¬ InRange (writeRange i) (0x4040 : Word).toNat) ∧
    (v.captured = some 0x06 ∧ ∀ d i, v.captured = some d → decode v.cfg.snapshotEn d = .ok i → v.checkCommand i = none →
        ¬ InRange (readRange i) (0x4000 : Word).toNat ∧ ¬ InRange (writeRange i) (0x4000 : Word).toNat) := by
  refine ⟨⟨by decide, by decide, by decide, fun d i h => nomatch h⟩, ⟨by decide, by decide, by decide, rfl, ?_⟩, rfl, ?_⟩
  · intro d i hd hi _
    rw [flight_decodes hd hi (show decode true cmdLoadctx = .ok (.loadctx 0 0x4000) by decide)]
    decide
  · intro d i hd hi _
    injection hd with hd
    subst hd
    exact (illegal_not_decoded hi).elim

/-- Address 0 with the core idle; the first byte of the image a `LOADCTX` in flight reads. -/
theorem witness_HostLoadReturnsByte :
    let s := { State.reset with host := [.load 0] }
    let u := flight cmdLoadctx [.load 0x4000]
    (s.host = .load 0 :: [] ∧ s.kindAt (0 : Word).toNat = some .plain ∧
      ∀ d i, s.captured = some d → decode s.cfg.snapshotEn d = .ok i → s.checkCommand i = none →
        ¬ InRange (writeRange i) (0 : Word).toNat) ∧
    (u.host = .load 0x4000 :: [] ∧ u.kindAt (0x4000 : Word).toNat = some .plain ∧ u.captured = some cmdLoadctx ∧
      InRange (readRange (.loadctx 0 0x4000)) (0x4000 : Word).toNat ∧
      ∀ d i, u.captured = some d → decode u.cfg.snapshotEn d = .ok i → u.checkCommand i = none →
        ¬ InRange (writeRange i) (0x4000 : Word).toNat) := by
  refine ⟨⟨by decide, by decide, fun d i h => nomatch h⟩, by decide, by decide, rfl, by decide, ?_⟩
  intro d i hd hi _
  rw [flight_decodes hd hi (show decode true cmdLoadctx = .ok (.loadctx 0 0x4000) by decide)]
  decide

theorem witness_ResetClearsIdleCore :
    let s := { State.resetWith 16 Config.default with host := [.assertReset, .releaseReset] }
    s.captured = none ∧ s.host = .assertReset :: .releaseReset :: [] ∧ 15 < s.nctx := by decide

theorem witness_NoCommandAcceptedWhileReset :
    let s := { State.reset with rst := true, host := [.present cmdSetkey] }
    s.rst = true ∧ s.captured = none ∧ s.host = .present cmdSetkey :: [] ∧
    ({ s with host := [.releaseReset] }).host = .releaseReset :: [] := by decide

theorem witness_ResetAbandonsCommand :
    let s := flight cmdSavectx [.assertReset]
    Memory.wf s.mem ∧ s.host = .assertReset :: [] ∧ s.captured = some cmdSavectx ∧
    decode s.cfg.snapshotEn cmdSavectx = .ok (.savectx 0 0x4000) ∧ s.checkCommand (.savectx 0 0x4000) = none ∧
    s.DutiesMet (.savectx 0 0x4000) := by decide

/-- An illegal command in flight, and one that names an absent context. -/
theorem witness_ResetAbandonsCommand_failing :
    let s := flight 0x06 [.assertReset]
    let u := flight 0x00000203 [.assertReset]
    (s.host = .assertReset :: [] ∧ s.captured = some 0x06 ∧
      ∀ i, decode s.cfg.snapshotEn 0x06 = .ok i → s.checkCommand i ≠ none) ∧
    (u.host = .assertReset :: [] ∧ u.captured = some 0x00000203 ∧
      ∀ i, decode u.cfg.snapshotEn 0x00000203 = .ok i → u.checkCommand i ≠ none) := by
  refine ⟨⟨rfl, rfl, fun i hi => ?_⟩, rfl, rfl, fun i hi => ?_⟩
  · exact (illegal_not_decoded hi).elim
  · rw [flight_decodes rfl hi (show decode true 0x00000203 = .ok (.process 2 0 0 0) by decide)]
    decide

/-- Both ends of the distance and the bit that wraps. -/
theorem witness_RotateMovesEachBit :
    (1 ≤ 1 ∧ 1 ≤ 31 ∧ 31 < 32) ∧ (1 ≤ 31 ∧ 31 ≤ 31 ∧ 0 < 32) ∧ (rotl32 0x80000000 1).getLsbD 0 = true := by decide

theorem witness_QuarterRoundsOnDisjointGroupsCommute :
    ([0, 4, 8, 12, 3, 7, 11, 15] : List (Fin 16)).Nodup := by decide

end Sys2Proof.Tests
end

section
/-! PROOFS. The invariant of every reachable state (spec 00_scope R5; 10_state R10, R18, R23, R24, R26; 70_reset_and_hazards
R150): it holds after reset, and each thing a step can do keeps it. -/

namespace Sys2Proof.Machine

/-! ## After reset -/

@[simp] theorem State.resetWith_nctx (n : Nat) (cfg : Config) : (State.resetWith n cfg).nctx = n := by
  simp [State.nctx, State.resetWith]

theorem State.resetWith_inv {n : Nat} (cfg : Config) (h1 : 1 ≤ n) (h16 : n ≤ 16) : (State.resetWith n cfg).Inv := by
  refine ⟨Memory.wf_nil, by simp [h1, h16], ?busy, ?error, rfl, fun _ => rfl⟩
  case busy => exact fun hb => nomatch hb
  case error => exact fun he => absurd rfl he

/-- Settles O30: the default core is the one with a single context. -/
theorem resetMeetsInvariant : Obligations.ResetMeetsInvariant :=
  ⟨State.resetWith_inv Config.default le_rfl (by decide), fun _ cfg h1 h16 => State.resetWith_inv cfg h1 h16⟩

/-! ## Memory stores, acceptance and the core's reset -/

theorem State.Inv.withMem {s : State} (h : s.Inv) {m : Memory} (hm : Memory.wf m) : { s with mem := m }.Inv :=
  ⟨hm, h.2⟩

theorem State.Inv.accept {s : State} (h : s.Inv) (hr : s.rst = false) (d : Command) : (s.accept d).Inv := by
  obtain ⟨hmem, hnctx, -, -, hwork, -⟩ := h
  exact ⟨hmem, hnctx, fun _ => ⟨rfl, rfl⟩, fun he => absurd rfl he, hwork, by simp [hr]⟩

theorem State.Inv.offer {s : State} (h : s.Inv) (d : Command) (rest : List HostAct) : (s.offer d rest).Inv := by
  unfold State.offer
  split_ifs with hr
  · exact h
  · exact State.Inv.accept (s := { s with host := rest }) h (eq_false_of_ne_true hr) d

/-- The assertion of `rst` needs only the memory and the number of contexts. -/
theorem State.resetCore_inv {s : State} (hm : Memory.wf s.mem) (hn : 1 ≤ s.nctx ∧ s.nctx ≤ 16) : s.resetCore.Inv := by
  refine ⟨hm, by rwa [State.resetCore_nctx], ?busy, ?error, rfl, fun _ => rfl⟩
  case busy => exact fun hb => nomatch hb
  case error => exact fun he => absurd rfl he

/-! ## Commands -/

theorem State.Inv.completeErr {s : State} (h : s.Inv) (k : Cause) : (s.completeErr k).Inv := by
  obtain ⟨hmem, hnctx, -, -, hwork, -⟩ := h
  refine ⟨hmem, hnctx, ?busy, fun _ => ⟨rfl, rfl⟩, hwork, fun _ => rfl⟩
  case busy => exact fun hb => nomatch hb

/-- No effect leaves anything in the working state: `PROCESS` clears it, the others do not touch it (R23, log entry 15). -/
theorem effect_work {s : State} (h : s.work = Work.cleared) (i : Instr) : (effect i s).work = Work.cleared := by
  cases i with
  | process => rfl
  | setkey | setiv | savectx | loadctx => exact h

@[simp] theorem effect_busy (i : Instr) (s : State) : (effect i s).busy = false := by
  simp [State.busy, effect_captured]

theorem State.Inv.effect {s : State} (h : s.Inv) {i : Instr} (hd : s.DutiesMet i) : (effect i s).Inv := by
  obtain ⟨hmem, hnctx, -, -, hwork, -⟩ := h
  exact ⟨effect_mem_wf hmem hd, by rwa [effect_nctx], by simp, by simp [effect_status], effect_work hwork i, by simp⟩

theorem exec_inv {s t : State} {i : Instr} (h : s.Inv) (he : exec i s = .next t) : t.Inv := by
  obtain ⟨k, -, rfl⟩ | ⟨-, hd, rfl⟩ := exec_next_iff.mp he
  · exact h.completeErr k
  · exact h.effect hd

theorem runCommand_inv {d : Command} {s t : State} (h : s.Inv) (hr : runCommand d s = .next t) : t.Inv := by
  obtain ⟨_, -, rfl⟩ | ⟨i, -, he⟩ := runCommand_next_iff.mp hr
  · exact h.completeErr .illegalCmd
  · exact exec_inv h he

/-! ## Reset while a command executes -/

/-- A command in flight whose run answers a next state was launched as the host's duties ask. -/
theorem State.dutiesMet_of_inFlight {s u : State} {d : Command} {i : Instr} (hc : s.captured = some d)
    (hr : runCommand d s = .next u) (hi : s.inFlight = some i) : s.DutiesMet i := by
  obtain ⟨d', hc', hdec, hk⟩ := State.inFlight_eq_some_iff.mp hi
  obtain rfl : d = d' := Option.some.inj (hc.symm.trans hc')
  have he : exec i s = .next u := by rwa [runCommand, hdec] at hr
  obtain ⟨k, hk', -⟩ | ⟨-, hd, -⟩ := exec_next_iff.mp he
  · rw [hk] at hk'; cases hk'
  · exact hd

/-- The bytes an abandoned command may have written lie inside the address space. -/
theorem State.abandonedRange_le {s u : State} {d : Command} (hc : s.captured = some d)
    (hr : runCommand d s = .next u) : s.abandonedRange.1 + s.abandonedRange.2 ≤ memTop := by
  unfold State.abandonedRange
  split
  · next i hi =>
    obtain ⟨-, ⟨hw, -⟩, -⟩ := State.dutiesMet_of_inFlight hc hr hi
    exact hw
  · exact Nat.zero_le _

theorem hostReset_inv {s t : State} (h : s.Inv) (hr : hostReset s = .next t) : t.Inv := by
  obtain ⟨hmem, hnctx, -⟩ := h
  obtain ⟨-, rfl⟩ | ⟨d, u, hc, hrun, rfl⟩ := hostReset_next hr
  · exact State.resetCore_inv hmem hnctx
  · exact State.resetCore_inv (abandonedMemory_wf hmem _ _ (State.abandonedRange_le hc hrun)) hnctx

/-! ## Every step -/

theorem hostStore_inv {a : Word} {b : Byte} {s t : State} (h : s.Inv) (hs : hostStore a b s = .next t) : t.Inv := by
  obtain ⟨-, rfl⟩ := hostStore_next hs
  exact h.withMem (Memory.write_wf h.1 a.isLt b)

theorem hostLoad_inv {a : Word} {s t : State} (h : s.Inv) (hl : hostLoad a s = .next t) : t.Inv := by
  obtain ⟨-, rfl⟩ := hostLoad_next hl
  exact h

theorem State.Inv.releaseReset {s : State} (h : s.Inv) : { s with rst := false }.Inv := by
  obtain ⟨hmem, hnctx, hbusy, herr, hwork, -⟩ := h
  exact ⟨hmem, hnctx, hbusy, herr, hwork, fun hr => nomatch hr⟩

/-- Settles O29, by the nine things a step can do. The invariant does not speak of the host's list, so `h` is also the
invariant of the state whose first act has been taken off. -/
theorem stepKeepsInvariant : Obligations.StepKeepsInvariant := by
  intro s t h hstep
  obtain ⟨a, b, rest, -, hs⟩ | ⟨a, rest, -, hl⟩ | ⟨sel, rest, -, rfl⟩ | ⟨rest, -, hr⟩ | ⟨rest, -, rfl⟩ |
    ⟨d, -, -, hrun⟩ | ⟨d, rest, -, -, rfl⟩ | ⟨rest, -, -, rfl⟩ | ⟨-, -, rfl⟩ := step_next hstep
  · exact hostStore_inv (s := { s with host := rest }) h hs
  · exact hostLoad_inv (s := { s with host := rest }) h hl
  · exact h
  · exact hostReset_inv (s := { s with host := rest }) h hr
  · exact State.Inv.releaseReset (s := { s with host := rest }) h
  · exact runCommand_inv h hrun
  · exact h.offer d rest
  · exact h
  · exact h

end Sys2Proof.Machine
end

section
/-! PROOFS. The status registers: the layout of each word, the values it takes, and the host's read of it (spec 10_state R18 to
R21, R26; 60_exceptions R131, R135). -/

namespace Sys2Proof.Machine

/-! ## `STATUS` -/

/-- The fields of `STATUS` from bit 0 upwards, each `else` past one field (R18). -/
theorem State.getLsbD_statusWord (s : State) (i : Nat) :
    s.statusWord.getLsbD i =
      if i < 1 then (BitVec.ofBool s.busy).getLsbD i
      else if i - 1 < 1 then (BitVec.ofBool s.status.done).getLsbD (i - 1)
      else if i - 1 - 1 < 1 then (BitVec.ofBool s.status.error.isSome).getLsbD (i - 1 - 1)
      else if i - 1 - 1 - 1 < 1 then (BitVec.ofBool s.status.serr).getLsbD (i - 1 - 1 - 1)
      else if i - 1 - 1 - 1 - 1 < 3 then s.status.causeField.getLsbD (i - 1 - 1 - 1 - 1)
      else false := by
  refine BitVec.getLsbD_append.trans ?_
  simp only [BitVec.getLsbD_append, BitVec.getLsbD_zero]

theorem State.statusWord_cause (s : State) : s.statusWord.extractLsb' 4 3 = s.status.causeField := by
  ext i hi
  have hlow : ¬ 4 + i < 1 ∧ ¬ 4 + i - 1 < 1 ∧ ¬ 4 + i - 1 - 1 < 1 ∧ ¬ 4 + i - 1 - 1 - 1 < 1 := by omega
  simp [State.getLsbD_statusWord, hlow, hi]

theorem State.statusWord_upper (s : State) : s.statusWord.extractLsb' 7 25 = 0 := by
  ext i hi
  have hlow : ¬ 7 + i < 1 ∧ ¬ 7 + i - 1 < 1 ∧ ¬ 7 + i - 1 - 1 < 1 ∧ ¬ 7 + i - 1 - 1 - 1 < 1 ∧
      ¬ 7 + i - 1 - 1 - 1 - 1 < 3 := by omega
  simp [State.getLsbD_statusWord, hlow]

theorem State.statusWord_completeOk (s : State) :
    s.completeOk.statusWord = if s.status.serr then 0xa else 0x2 := by
  rw [State.statusWord, State.completeOk_status, State.completeOk_busy]
  cases s.status.serr <;> decide

theorem State.statusWord_accept (s : State) (d : Command) :
    (s.accept d).statusWord = if s.status.serr then 0x9 else 0x1 := by
  rw [State.statusWord, State.accept_status, State.accept_busy]
  cases s.status.serr <;> decide

theorem State.statusWord_completeErr (s : State) (k : Cause) :
    (s.completeErr k).statusWord = BitVec.ofNat 32 (16 * k.code.toNat + 0xe) := by
  rw [State.statusWord, State.completeErr_status, State.completeErr_busy]
  cases k <;> decide

theorem State.statusWord_idle_cleared {s : State} (hc : s.captured = none) (hs : s.status = Status.cleared) :
    s.statusWord = 0 := by
  rw [State.statusWord, State.busy, hc, hs]
  decide

/-- Settles O25, field by field from `State.getLsbD_statusWord`. -/
theorem statusRegisterLayout : Obligations.StatusRegisterLayout := by
  intro s
  refine ⟨(s.getLsbD_statusWord 0).trans (by simp), (s.getLsbD_statusWord 1).trans (by simp),
    (s.getLsbD_statusWord 2).trans (by simp), (s.getLsbD_statusWord 3).trans (by simp), ?noError, ?error,
    s.statusWord_upper, s.statusWord_completeErr _, s.statusWord_completeErr _, s.statusWord_completeErr _,
    s.statusWord_completeErr _, ?clear, ?sticky⟩
  case noError => exact fun he => by rw [State.statusWord_cause, Status.causeField, he]
  case error => exact fun k he => by rw [State.statusWord_cause, Status.causeField, he]
  case clear => exact fun h => ⟨by simp [State.statusWord_completeOk, h], fun d => by simp [State.statusWord_accept, h]⟩
  case sticky => exact fun h => ⟨by simp [State.statusWord_completeOk, h], fun d => by simp [State.statusWord_accept, h]⟩

/-! ## `CONFIG` -/

/-- The fields of `CONFIG` from bit 0 upwards, each `else` past one field (R19). -/
theorem State.getLsbD_configWord (s : State) (i : Nat) :
    s.configWord.getLsbD i =
      if i < 8 then (BitVec.ofNat 8 s.nctx).getLsbD i
      else if i - 8 < 1 then (BitVec.ofBool s.cfg.snapshotEn).getLsbD (i - 8)
      else if i - 8 - 1 < 7 then false
      else if i - 8 - 1 - 7 < 8 then (20#8).getLsbD (i - 8 - 1 - 7)
      else false := by
  refine BitVec.getLsbD_append.trans ?_
  simp only [BitVec.getLsbD_append, BitVec.getLsbD_zero]

theorem State.configWord_nctx (s : State) : s.configWord.extractLsb' 0 8 = BitVec.ofNat 8 s.nctx := by
  ext i hi
  simp [State.getLsbD_configWord, hi]

theorem State.configWord_snapshotEn (s : State) : s.configWord.getLsbD 8 = s.cfg.snapshotEn :=
  (s.getLsbD_configWord 8).trans (by simp)

theorem State.configWord_reserved (s : State) : s.configWord.extractLsb' 9 7 = 0 := by
  ext i hi
  have hpos : ¬ 9 + i < 8 ∧ ¬ 9 + i - 8 < 1 ∧ 9 + i - 8 - 1 < 7 := by omega
  simp [State.getLsbD_configWord, hpos]

theorem State.configWord_rounds (s : State) : s.configWord.extractLsb' 16 8 = 0x14 := by
  ext i hi
  have hlow : ¬ 16 + i < 8 ∧ ¬ 16 + i - 8 < 1 ∧ ¬ 16 + i - 8 - 1 < 7 := by omega
  have hpos : 16 + i - 8 - 1 - 7 = i := by omega
  simp [State.getLsbD_configWord, hlow, hpos, hi]

theorem State.configWord_upper (s : State) : s.configWord.extractLsb' 24 8 = 0 := by
  ext i hi
  have hlow : ¬ 24 + i < 8 ∧ ¬ 24 + i - 8 < 1 ∧ ¬ 24 + i - 8 - 1 < 7 ∧ ¬ 24 + i - 8 - 1 - 7 < 8 := by omega
  simp [State.getLsbD_configWord, hlow]

theorem State.configWord_congr {s t : State} (hn : t.nctx = s.nctx) (hc : t.cfg = s.cfg) :
    t.configWord = s.configWord := by
  rw [State.configWord, State.configWord, hn, hc]

theorem State.configWord_reset : State.reset.configWord = 0x00140101 := by decide

/-! ## `CTXFLAGS` -/

theorem State.flagAt_of_getElem? {s : State} {c : Nat} {x : Context} (h : s.ctxs[c]? = some x) (flag : Context → Bool) :
    s.flagAt flag c = flag x := by
  rw [State.flagAt, h]

theorem State.flagAt_absent {s : State} {c : Nat} (h : s.ctxs[c]? = none) (flag : Context → Bool) :
    s.flagAt flag c = false := by
  rw [State.flagAt, h]

theorem State.flagAt_eq_true_iff {s : State} {flag : Context → Bool} {c : Nat} :
    s.flagAt flag c = true ↔ ∃ x, s.ctxs[c]? = some x ∧ flag x = true := by
  cases h : s.ctxs[c]? with
  | none => simp [State.flagAt_absent h]
  | some x => simp [State.flagAt_of_getElem? h]

theorem State.getLsbD_flagBits (s : State) (flag : Context → Bool) {c : Nat} (hc : c < 16) :
    (s.flagBits flag).getLsbD c = s.flagAt flag c := by
  simp [State.flagBits, hc]

theorem State.ctxFlagsWord_keyed (s : State) {c : Nat} (hc : c < 16) :
    s.ctxFlagsWord.getLsbD c = s.flagAt (fun x => x.keyed) c := by
  refine BitVec.getLsbD_append.trans ?_
  rw [if_pos hc, State.getLsbD_flagBits s _ hc]

theorem State.ctxFlagsWord_ivset (s : State) {c : Nat} (hc : c < 16) :
    s.ctxFlagsWord.getLsbD (16 + c) = s.flagAt (fun x => x.ivset) c := by
  refine BitVec.getLsbD_append.trans ?_
  rw [if_neg (by omega), Nat.add_sub_cancel_left, State.getLsbD_flagBits s _ hc]

/-- Settles O27. -/
theorem ctxFlagsRegisterBits : Obligations.CtxFlagsRegisterBits := by
  intro s c hc
  rw [State.ctxFlagsWord_keyed s hc, State.ctxFlagsWord_ivset s hc]
  constructor
  · exact fun x hx => ⟨State.flagAt_of_getElem? hx _, State.flagAt_of_getElem? hx _⟩
  · intro hn
    have hx : s.ctxs[c]? = none := List.getElem?_eq_none hn
    exact ⟨State.flagAt_absent hx _, State.flagAt_absent hx _⟩

theorem State.flagBits_eq_zero {s : State} {flag : Context → Bool} (h : ∀ x ∈ s.ctxs, flag x = false) :
    s.flagBits flag = 0 := by
  ext c hc
  have hf : s.flagAt flag c = false := by
    by_contra ht
    obtain ⟨x, hx, hfx⟩ := State.flagAt_eq_true_iff.mp (eq_true_of_ne_false ht)
    rw [h x (List.mem_of_getElem? hx)] at hfx
    cases hfx
  rw [← BitVec.getLsbD_eq_getElem, State.getLsbD_flagBits s flag hc, hf]
  simp

theorem State.ctxFlagsWord_cleared {s : State} (h : ∀ x ∈ s.ctxs, x = Context.cleared) : s.ctxFlagsWord = 0 := by
  have hz : ∀ flag : Context → Bool, flag Context.cleared = false → s.flagBits flag = 0 :=
    fun flag hf => State.flagBits_eq_zero fun x hx => by rw [h x hx, hf]
  rw [State.ctxFlagsWord, hz _ rfl, hz _ rfl]
  rfl

/-! ## The read, and the values after reset -/

/-- Settles O28: the read is one of the acts a step does at once, whatever is in flight. -/
theorem statusReadHasNoSideEffect : Obligations.StatusReadHasNoSideEffect := by
  intro s sel rest h
  refine ⟨s.statusReg sel, by rw [step, h]; rfl, ?_, ?_, ?_, ?_⟩ <;> rintro rfl <;> rfl

/-- Settles O45: the one context of the default core is cleared and the core is idle. -/
theorem resetValues : Obligations.ResetValues :=
  ⟨rfl, State.statusWord_idle_cleared rfl rfl, State.configWord_reset,
    State.ctxFlagsWord_cleared fun _ hx => List.eq_of_mem_replicate hx, rfl, rfl⟩

end Sys2Proof.Machine
end

section
/-! PROOFS. What a step may change of the contexts, of `SERR` and of the parameters (spec 10_state R11 to R19; 60_exceptions
R139, R144, R146), and what reset leaves (R26, R150, R153). -/

namespace Sys2Proof.Machine

/-! ## What a command makes of the context it names -/

/-- What the command `i`, executed in `s`, makes of the context it names. -/
def contextEffect (s : State) : Instr → Context → Context
  | .setkey _ keyAddr keyLen, c => { c with x := keyWords s.cfg s.mem keyAddr keyLen c.x }.setKeyed
  | .setiv _ nonceAddr _ counter, c => { c with x := ivWords s.mem nonceAddr counter c.x }.setIvset
  | .process ctx outAddr inAddr length, c => { c with x := (s.engineRun ctx outAddr inAddr length).x }
  | .savectx _ _, c => c
  | .loadctx _ addr, c => { c with x := imageWords s.mem addr.toNat }.setKeyed.setIvset

theorem effect_ctxs (i : Instr) (s : State) : (effect i s).ctxs = s.ctxs.modify i.ctx.toNat (contextEffect s i) := by
  cases i with
  | savectx => exact (List.modify_id _ _).symm
  | setkey | setiv | process | loadctx => rfl

theorem effect_context_named (i : Instr) (s : State) :
    (effect i s).ctxs[i.ctx.toNat]? = s.ctxs[i.ctx.toNat]?.map (contextEffect s i) := by
  simp [effect_ctxs]

/-! The words a command leaves alone, one lemma per row of the table of R15. -/

theorem keyWords_upper (cfg : Config) (m : Memory) (keyAddr keyLen : Word) (x : Block) {j : Fin 16} (hj : 12 ≤ j.val) :
    (keyWords cfg m keyAddr keyLen x)[j] = x[j] := by
  have hlow : ¬ j.val < 4 ∧ ¬ j.val < 8 ∧ ¬ j.val < 12 := by omega
  unfold keyWords
  split_ifs <;> simp [keyBlock, hlow]

theorem ivWords_lower (m : Memory) (nonceAddr counter : Word) (x : Block) {j : Fin 16} (hj : j.val < 12) :
    (ivWords m nonceAddr counter x)[j] = x[j] := by
  simp [ivWords, hj]

theorem engineRun_x_other (s : State) (ctx : CtxNum) (outAddr inAddr length : Word) {j : Fin 16} (hj : j ≠ 12) :
    (s.engineRun ctx outAddr inAddr length).x[j] = (s.ctxAt ctx).x[j] :=
  engineLoop_x_other _ _ j hj

/-- A word a command may change of the context it names (R15). -/
def mayChangeWord (i : Instr) (j : Fin 16) : Prop :=
  match i with
  | .setkey _ _ _ => j.val < 12
  | .setiv _ _ _ _ => 12 ≤ j.val
  | .process _ _ _ _ => j.val = 12
  | .savectx _ _ => False
  | .loadctx _ _ => True

theorem contextEffect_word {s : State} {i : Instr} {c : Context} (hc : s.ctxs[i.ctx.toNat]? = some c) {j : Fin 16}
    (hj : (contextEffect s i c).x[j] ≠ c.x[j]) : mayChangeWord i j := by
  cases i with
  | setkey ctx keyAddr keyLen => exact Nat.lt_of_not_le fun h => hj (keyWords_upper _ _ _ _ _ h)
  | setiv ctx nonceAddr nonceLen counter => exact Nat.le_of_not_lt fun h => hj (ivWords_lower _ _ _ _ h)
  | process ctx outAddr inAddr length =>
    have hat : s.ctxAt ctx = c := State.ctxAt_of_getElem? hc
    by_contra h
    exact hj (hat ▸ engineRun_x_other s ctx outAddr inAddr length fun e => h (congrArg Fin.val e))
  | savectx => exact hj rfl
  | loadctx => exact trivial

/-! ## What a step can do to a context, to `SERR` and to the parameters -/

theorem runCommand_context {d : Command} {s t : State} (h : runCommand d s = .next t) (k : Nat) :
    t.ctxs[k]? = s.ctxs[k]? ∨
      ∃ i, decode s.cfg.snapshotEn d = .ok i ∧ i.ctx.toNat = k ∧ t.ctxs[k]? = s.ctxs[k]?.map (contextEffect s i) := by
  obtain ⟨-, -, rfl⟩ | ⟨i, hi, he⟩ := runCommand_next_iff.mp h
  · exact .inl rfl
  obtain ⟨-, -, rfl⟩ | ⟨-, -, rfl⟩ := exec_next_iff.mp he
  · exact .inl rfl
  by_cases hk : k = i.ctx.toNat
  · subst hk
    exact .inr ⟨i, hi, rfl, effect_context_named i s⟩
  · exact .inl (effect_ctxs_other hk)

theorem runCommand_serr {d : Command} {s t : State} (h : runCommand d s = .next t) (hs : s.status.serr = true) :
    t.status.serr = true := by
  obtain ⟨-, -, rfl⟩ | ⟨i, -, he⟩ := runCommand_next_iff.mp h
  · rfl
  obtain ⟨-, -, rfl⟩ | ⟨-, -, rfl⟩ := exec_next_iff.mp he
  · rfl
  · rw [effect_status]
    exact hs

theorem runCommand_parameters {d : Command} {s t : State} (h : runCommand d s = .next t) :
    t.nctx = s.nctx ∧ t.cfg = s.cfg := by
  obtain ⟨-, -, rfl⟩ | ⟨i, -, he⟩ := runCommand_next_iff.mp h
  · exact ⟨rfl, rfl⟩
  obtain ⟨-, -, rfl⟩ | ⟨-, -, rfl⟩ := exec_next_iff.mp he
  · exact ⟨rfl, rfl⟩
  · exact ⟨effect_nctx i s, effect_cfg i s⟩

@[simp] theorem State.offer_ctxs (s : State) (d : Command) (rest : List HostAct) : (s.offer d rest).ctxs = s.ctxs := by
  unfold State.offer; split_ifs <;> rfl

@[simp] theorem State.offer_cfg (s : State) (d : Command) (rest : List HostAct) : (s.offer d rest).cfg = s.cfg := by
  unfold State.offer; split_ifs <;> rfl

@[simp] theorem State.offer_serr (s : State) (d : Command) (rest : List HostAct) :
    (s.offer d rest).status.serr = s.status.serr := by
  unfold State.offer; split_ifs <;> rfl

theorem State.hostResets_iff {s : State} : s.hostResets = true ↔ ∃ rest, s.host = .assertReset :: rest := by
  unfold State.hostResets
  split <;> simp_all

/-- But for reset, a step leaves contexts, parameters and `SERR` as they are or runs the captured command. -/
theorem step_runs_or_keeps {s t : State} (h : step s = .next t) (hr : s.hostResets = false) :
    (t.ctxs = s.ctxs ∧ t.cfg = s.cfg ∧ t.status.serr = s.status.serr) ∨
      ∃ d, s.captured = some d ∧ runCommand d s = .next t := by
  obtain ⟨a, b, rest, -, hs⟩ | ⟨a, rest, -, hl⟩ | ⟨sel, rest, -, rfl⟩ | ⟨rest, hh, -⟩ | ⟨rest, -, rfl⟩ |
    ⟨d, -, hc, hrun⟩ | ⟨d, rest, -, -, rfl⟩ | ⟨rest, -, -, rfl⟩ | ⟨-, -, rfl⟩ := step_next h
  · obtain ⟨-, rfl⟩ := hostStore_next hs
    exact .inl ⟨rfl, rfl, rfl⟩
  · obtain ⟨-, rfl⟩ := hostLoad_next hl
    exact .inl ⟨rfl, rfl, rfl⟩
  · exact .inl ⟨rfl, rfl, rfl⟩
  · exact absurd (State.hostResets_iff.mpr ⟨rest, hh⟩) (by simp [hr])
  · exact .inl ⟨rfl, rfl, rfl⟩
  · exact .inr ⟨d, hc, hrun⟩
  · exact .inl ⟨s.offer_ctxs d rest, s.offer_cfg d rest, s.offer_serr d rest⟩
  · exact .inl ⟨rfl, rfl, rfl⟩
  · exact .inl ⟨rfl, rfl, rfl⟩

theorem step_context {s t : State} (h : step s = .next t) (hr : s.hostResets = false) (k : Nat) :
    t.ctxs[k]? = s.ctxs[k]? ∨
      ∃ d i, s.captured = some d ∧ decode s.cfg.snapshotEn d = .ok i ∧ i.ctx.toNat = k ∧
        t.ctxs[k]? = s.ctxs[k]?.map (contextEffect s i) := by
  obtain ⟨hc, -⟩ | ⟨d, hd, hrun⟩ := step_runs_or_keeps h hr
  · exact .inl (by rw [hc])
  · exact (runCommand_context hrun k).imp_right fun ⟨i, hi⟩ => ⟨d, i, hd, hi⟩

/-- Settles O31. -/
theorem otherContextsUntouched : Obligations.OtherContextsUntouched := by
  intro s t i h
  obtain ⟨-, -, rfl⟩ | ⟨-, -, rfl⟩ := exec_next_iff.mp h
  · exact ⟨rfl, fun _ _ => rfl⟩
  · exact ⟨effect_nctx i s, fun _ hk => effect_ctxs_other hk⟩

/-- Settles O32: a context that a step changes is the one the captured command names. -/
theorem wordsWrittenOnlyByTheirCommands : Obligations.WordsWrittenOnlyByTheirCommands := by
  intro s t k c c' j h hr hc hc' hne
  obtain hk | ⟨d, i, hd, hi, rfl, hk⟩ := step_context h hr k
  · obtain rfl : c' = c := by rw [hk, hc] at hc'; exact (Option.some.inj hc').symm
    exact absurd rfl hne
  · obtain rfl : contextEffect s i c = c' := by rw [hk, hc] at hc'; exact Option.some.inj hc'
    exact ⟨d, i, hd, hi, rfl, contextEffect_word hc hne⟩

/-! ## The flags -/

/-- The commands that set `KEYED` (R17). -/
def setsKeyed : Instr → Bool
  | .setkey .. | .loadctx .. => true
  | .setiv .. | .process .. | .savectx .. => false

/-- The commands that set `IVSET` (R17). -/
def setsIvset : Instr → Bool
  | .setiv .. | .loadctx .. => true
  | .setkey .. | .process .. | .savectx .. => false

theorem eq_of_setsKeyed {i : Instr} (h : setsKeyed i = true) :
    (∃ a n, i = .setkey i.ctx a n) ∨ (∃ a, i = .loadctx i.ctx a) := by
  cases i with
  | setkey _ a n => exact .inl ⟨a, n, rfl⟩
  | loadctx _ a => exact .inr ⟨a, rfl⟩
  | setiv | process | savectx => cases h

theorem eq_of_setsIvset {i : Instr} (h : setsIvset i = true) :
    (∃ a n v, i = .setiv i.ctx a n v) ∨ (∃ a, i = .loadctx i.ctx a) := by
  cases i with
  | setiv _ a n v => exact .inl ⟨a, n, v, rfl⟩
  | loadctx _ a => exact .inr ⟨a, rfl⟩
  | setkey | process | savectx => cases h

theorem contextEffect_keyed (s : State) (i : Instr) (c : Context) :
    (contextEffect s i c).keyed = (setsKeyed i || c.keyed) := by
  cases i <;> rfl

theorem contextEffect_ivset (s : State) (i : Instr) (c : Context) :
    (contextEffect s i c).ivset = (setsIvset i || c.ivset) := by
  cases i <;> rfl

section
variable {flag : Context → Bool} {sets : Instr → Bool} {s t : State} {k : Nat}
  (heff : ∀ i c, flag (contextEffect s i c) = (sets i || flag c))
include heff

theorem step_keeps_flag (h : step s = .next t) (hr : s.hostResets = false) (hs : s.flagAt flag k = true) :
    t.flagAt flag k = true := by
  obtain ⟨x, hx, hfx⟩ := State.flagAt_eq_true_iff.mp hs
  rw [State.flagAt_eq_true_iff]
  obtain hk | ⟨-, i, -, -, -, hk⟩ := step_context h hr k
  · exact ⟨x, hk.trans hx, hfx⟩
  · exact ⟨contextEffect s i x, by rw [hk, hx]; rfl, by rw [heff, hfx, Bool.or_true]⟩

theorem step_sets_flag (h : step s = .next t) (hr : s.hostResets = false) (hs : s.flagAt flag k = false)
    (ht : t.flagAt flag k = true) :
    ∃ d i, s.captured = some d ∧ decode s.cfg.snapshotEn d = .ok i ∧ i.ctx.toNat = k ∧ sets i = true := by
  obtain ⟨y, hy, hfy⟩ := State.flagAt_eq_true_iff.mp ht
  obtain hk | ⟨d, i, hd, hi, hik, hk⟩ := step_context h hr k
  · rw [State.flagAt_of_getElem? (hk.symm.trans hy), hfy] at hs
    cases hs
  · refine ⟨d, i, hd, hi, hik, ?_⟩
    obtain ⟨x, hx, rfl⟩ := Option.map_eq_some_iff.mp (hk.symm.trans hy)
    rw [State.flagAt_of_getElem? hx] at hs
    rwa [heff, hs, Bool.or_false] at hfy

end

/-- Settles O33, each flag by the same two lemmas. -/
theorem flagsSetByCommandsClearedByReset : Obligations.FlagsSetByCommandsClearedByReset := by
  intro s t k h hr
  refine ⟨step_keeps_flag (contextEffect_keyed s) h hr, step_keeps_flag (contextEffect_ivset s) h hr, ?keyed, ?ivset⟩
  case keyed =>
    intro hs ht
    obtain ⟨d, i, hd, hi, hik, hsets⟩ := step_sets_flag (contextEffect_keyed s) h hr hs ht
    exact ⟨d, i, hd, hi, hik, eq_of_setsKeyed hsets⟩
  case ivset =>
    intro hs ht
    obtain ⟨d, i, hd, hi, hik, hsets⟩ := step_sets_flag (contextEffect_ivset s) h hr hs ht
    exact ⟨d, i, hd, hi, hik, eq_of_setsIvset hsets⟩

/-! ## `SERR` and the parameters -/

/-- Settles O34. -/
theorem stickyErrorStaysUntilReset : Obligations.StickyErrorStaysUntilReset := by
  intro s t h hr hs
  obtain ⟨-, -, hserr⟩ | ⟨d, -, hrun⟩ := step_runs_or_keeps h hr
  · exact hserr.trans hs
  · exact runCommand_serr hrun hs

theorem hostReset_parameters {s t : State} (h : hostReset s = .next t) : t.nctx = s.nctx ∧ t.cfg = s.cfg := by
  obtain ⟨-, rfl⟩ | ⟨-, -, -, -, rfl⟩ := hostReset_next h <;> exact ⟨State.resetCore_nctx _, rfl⟩

theorem step_parameters {s t : State} (h : step s = .next t) : t.nctx = s.nctx ∧ t.cfg = s.cfg := by
  by_cases hr : s.hostResets = true
  · obtain ⟨rest, hh⟩ := State.hostResets_iff.mp hr
    rw [step, hh] at h
    exact hostReset_parameters (s := { s with host := rest }) h
  · obtain ⟨hctxs, hcfg, -⟩ | ⟨d, -, hrun⟩ := step_runs_or_keeps h (eq_false_of_ne_true hr)
    · exact ⟨congrArg List.length hctxs, hcfg⟩
    · exact runCommand_parameters hrun

/-- Settles O26. -/
theorem configRegisterIsConstant : Obligations.ConfigRegisterIsConstant := by
  refine ⟨fun s hn => ?fields, State.configWord_reset, fun s t h => ?constant⟩
  case fields =>
    refine ⟨?_, s.configWord_snapshotEn, s.configWord_reserved, s.configWord_rounds, s.configWord_upper⟩
    rw [State.configWord_nctx, BitVec.toNat_ofNat, Nat.mod_eq_of_lt (by omega)]
  case constant =>
    obtain ⟨hn, hc⟩ := step_parameters h
    exact ⟨State.configWord_congr hn hc, hn, hc⟩

/-! ## Reset of an idle core -/

theorem State.resetCore_ctxs_mem {s : State} {x : Context} (h : x ∈ s.resetCore.ctxs) : x = Context.cleared := by
  obtain ⟨-, -, hx⟩ := List.mem_map.mp h
  exact hx.symm

theorem State.resetCore_getElem? {s : State} {k : Nat} (h : k < s.nctx) :
    s.resetCore.ctxs[k]? = some Context.cleared := by
  rw [State.resetCore_ctxs, List.getElem?_map, List.getElem?_eq_getElem h]
  rfl

theorem Context.cleared_word (i : Fin 16) : Context.cleared.x[i] = 0 := by
  simp [Context.cleared]

theorem step_assertReset_idle {s : State} {rest : List HostAct} (hc : s.captured = none)
    (hh : s.host = .assertReset :: rest) : step s = .next { s with host := rest }.resetCore := by
  simp [step, hh, hostReset, hc]

/-- Settles O42: the assertion leaves `State.resetCore`, from which the release differs only in `rst` and in the host's list. -/
theorem resetClearsIdleCore : Obligations.ResetClearsIdleCore := by
  intro s rest hc hh
  refine ⟨_, _, step_assertReset_idle hc hh, rfl, rfl, s.resetCore_nctx, State.configWord_congr s.resetCore_nctx rfl,
    State.statusWord_idle_cleared rfl rfl, State.ctxFlagsWord_cleared fun _ => State.resetCore_ctxs_mem (s := s),
    rfl, rfl, rfl, fun k hk => ?contexts⟩
  case contexts => exact ⟨Context.cleared, State.resetCore_getElem? hk, rfl, rfl, Context.cleared_word⟩

end Sys2Proof.Machine
end

section
/-! PROOFS. What a command does to the memory: the bytes it may write, the bytes its result depends on, and the ranges that stop
it (spec 20_memory R32, R36 to R38, R42 to R44; 60_exceptions R134, R145). -/

namespace Sys2Proof.Machine

/-! ## The bytes written -/

theorem Memory.read_writeBytes_outside (m : Memory) {a x : Nat} {bs : List Byte} (hx : ¬ (a ≤ x ∧ x < a + bs.length)) :
    (m.writeBytes a bs).read x = m.read x := by
  induction bs generalizing m a with
  | nil => rfl
  | cons b bs ih =>
    simp only [List.length_cons] at hx
    rw [Memory.writeBytes, ih (m.write a b) (by omega), Memory.read_write_other m (by omega)]

theorem effect_process_mem (ctx : CtxNum) (outAddr inAddr length : Word) (s : State) :
    (effect (.process ctx outAddr inAddr length) s).mem = (s.engineRun ctx outAddr inAddr length).mem := rfl

theorem effect_savectx_mem (ctx : CtxNum) (addr : Word) (s : State) :
    (effect (.savectx ctx addr) s).mem = s.mem.writeBytes addr.toNat (serialize (s.ctxAt ctx).x).toList := by
  simp only [effect, State.completeOk_mem]

theorem engineRun_read_outside (s : State) (ctx : CtxNum) {outAddr length : Word} (inAddr : Word)
    (hout : outAddr.toNat + length.toNat ≤ memTop) {a : Nat} (ha : ¬ InRange (outAddr.toNat, length.toNat) a) :
    (s.engineRun ctx outAddr inAddr length).mem.read a = s.mem.read a :=
  engineLoop_read_outside _ { x := _, mem := _, work := { s.work with op := outAddr, ip := inAddr, rem := length } } hout ha

/-- `effect_read_outside` without its premise on the form of the memory. -/
theorem effect_read_outside_of_duties {s : State} {i : Instr} (hd : s.DutiesMet i) {a : Nat}
    (ha : ¬ InRange (writeRange i) a) : (effect i s).mem.read a = s.mem.read a := by
  cases i with
  | process ctx outAddr inAddr length =>
    obtain ⟨-, ⟨hout, -⟩, -⟩ := hd
    rw [effect_process_mem, engineRun_read_outside s ctx inAddr hout ha]
  | savectx ctx addr =>
    rw [effect_savectx_mem, Memory.read_writeBytes_outside]
    rwa [Vector.length_toList]
  | setkey | setiv | loadctx => rfl

/-- Settles O35. -/
theorem writesStayInFootprint : Obligations.WritesStayInFootprint := by
  intro s t i h
  obtain ⟨-, -, rfl⟩ | ⟨hpass, hd, rfl⟩ := exec_next_iff.mp h
  · exact ⟨fun _ _ => rfl, fun _ => rfl⟩
  · exact ⟨fun _ ha => effect_read_outside_of_duties hd ha, fun hfail => absurd hpass hfail⟩

/-! ## The bytes read: the same words from memories that agree on them -/

theorem InRange.mono {a n b k x : Nat} (hx : InRange (b, k) x) (hlo : a ≤ b) (hhi : b + k ≤ a + n) : InRange (a, n) x :=
  ⟨Nat.le_trans hlo hx.1, Nat.lt_of_lt_of_le hx.2 hhi⟩

section
variable {m m' : Memory}

theorem loadWord_congr {a : Nat} (h : ∀ x, InRange (a, 4) x → m.read x = m'.read x) : loadWord m a = loadWord m' a := by
  have hbyte : ∀ k, k < 4 → m.read (a + k) = m'.read (a + k) := fun k hk => h _ ⟨by omega, by omega⟩
  have hfirst : m.read a = m'.read a := hbyte 0 (by omega)
  rw [loadWord, loadWord, hfirst, hbyte 1 (by omega), hbyte 2 (by omega), hbyte 3 (by omega)]

/-- Word `k` of `n` little-endian words. -/
theorem loadWord_congr_at {a n k : Nat} (h : ∀ x, InRange (a, 4 * n) x → m.read x = m'.read x) (hk : k < n) :
    loadWord m (a + 4 * k) = loadWord m' (a + 4 * k) :=
  loadWord_congr fun x hx => h x (hx.mono (by omega) (by omega))

theorem keyBlock_congr {a b : Nat} (ha : ∀ x, InRange (a, 16) x → m.read x = m'.read x)
    (hb : ∀ x, InRange (b, 16) x → m.read x = m'.read x) (x : Block) (k : Vector Word 4) :
    keyBlock x k m a b = keyBlock x k m' a b := by
  unfold keyBlock
  congr 1
  funext i
  split_ifs
  · rfl
  · exact loadWord_congr_at (n := 4) ha (by omega)
  · exact loadWord_congr_at (n := 4) hb (by omega)
  · rfl

theorem keyWords_congr {keyAddr keyLen : Word} (hlen : keyLen = 16 ∨ keyLen = 32)
    (h : ∀ x, InRange (keyAddr.toNat, keyLen.toNat) x → m.read x = m'.read x) (cfg : Config) (x : Block) :
    keyWords cfg m keyAddr keyLen x = keyWords cfg m' keyAddr keyLen x := by
  obtain rfl | rfl := hlen
  · exact keyBlock_congr h h x cfg.const16
  · exact keyBlock_congr (fun y hy => h y (hy.mono le_rfl (by simp)))
      (fun y hy => h y (hy.mono (by omega) (by simp [Nat.add_assoc]))) x cfg.const32

theorem ivWords_congr {nonceAddr : Word} (h : ∀ x, InRange (nonceAddr.toNat, 12) x → m.read x = m'.read x)
    (counter : Word) (x : Block) : ivWords m nonceAddr counter x = ivWords m' nonceAddr counter x := by
  unfold ivWords
  congr 1
  funext i
  split_ifs
  · rfl
  · rfl
  · exact loadWord_congr_at (n := 3) h (by omega)

theorem imageWords_congr {a : Nat} (h : ∀ x, InRange (a, 64) x → m.read x = m'.read x) :
    imageWords m a = imageWords m' a := by
  unfold imageWords
  congr 1
  funext i
  exact loadWord_congr_at (n := 16) h i.isLt

end

theorem keyLen_of_check {s : State} {ctx : CtxNum} {keyAddr keyLen : Word}
    (h : s.checkCommand (.setkey ctx keyAddr keyLen) = none) : keyLen = 16 ∨ keyLen = 32 := by
  obtain ⟨-, -, hlen⟩ := State.checkCommand_eq_none_iff.mp h
  by_contra hn
  rw [lengthError, if_neg hn] at hlen
  cases hlen

theorem nonceLen_of_check {s : State} {ctx : CtxNum} {nonceAddr nonceLen counter : Word}
    (h : s.checkCommand (.setiv ctx nonceAddr nonceLen counter) = none) : nonceLen = 12 := by
  obtain ⟨-, -, hlen⟩ := State.checkCommand_eq_none_iff.mp h
  by_contra hn
  rw [lengthError, if_neg hn] at hlen
  cases hlen

section
variable {s : State} {m : Memory} {i : Instr} (hs : Memory.wf s.mem) (hm : Memory.wf m) (hd : s.DutiesMet i)
  (hagree : ∀ a, InRange (readRange i) a → m.read a = s.mem.read a)
include hs hm hd hagree

theorem contextEffect_congr (hk : s.checkCommand i = none) : contextEffect { s with mem := m } i = contextEffect s i := by
  funext c
  cases i with
  | setkey ctx keyAddr keyLen =>
    simp only [contextEffect, keyWords_congr (keyLen_of_check hk) hagree]
  | setiv ctx nonceAddr nonceLen counter =>
    obtain rfl := nonceLen_of_check hk
    simp only [contextEffect, ivWords_congr hagree]
  | process ctx outAddr inAddr length =>
    obtain ⟨hx, -⟩ := engineRun_spec hs ctx hd
    obtain ⟨hx', -⟩ := engineRun_spec (s := { s with mem := m }) hm ctx hd
    simp only [contextEffect, hx, hx']
    rfl
  | savectx => rfl
  | loadctx ctx addr => simp only [contextEffect, imageWords_congr hagree]

theorem effect_read_congr {a : Nat} (ha : InRange (writeRange i) a) :
    (effect i { s with mem := m }).mem.read a = (effect i s).mem.read a := by
  cases i with
  | process ctx outAddr inAddr length =>
    obtain ⟨-, -, hread⟩ := engineRun_spec hs ctx hd
    obtain ⟨-, -, hread'⟩ := engineRun_spec (s := { s with mem := m }) hm ctx hd
    have hin : m.read (inAddr.toNat + (a - outAddr.toNat)) = s.mem.read (inAddr.toNat + (a - outAddr.toNat)) := by
      obtain ⟨hlo, hhi⟩ := ha
      exact hagree _ ⟨Nat.le_add_right .., by simp only [readRange, writeRange] at *; omega⟩
    have ha : outAddr.toNat ≤ a ∧ a < outAddr.toNat + length.toNat := ha
    rw [effect_process_mem, effect_process_mem, hread, hread', if_pos ha, if_pos ha, hin]
    rfl
  | savectx ctx addr =>
    obtain ⟨htop, -⟩ := dutiesMet_savectx.mp hd
    have ha : addr.toNat ≤ a ∧ a < addr.toNat + 64 := ha
    rw [effect_savectx_mem, effect_savectx_mem, read_writeImage hm htop, read_writeImage hs htop, if_pos ha, if_pos ha]
    rfl
  | setkey | setiv | loadctx =>
    obtain ⟨hlo, hhi⟩ := ha
    exact absurd hhi (Nat.not_lt.mpr hlo)

end

/-- Settles O36: neither the checks nor the duties look at the memory, so both runs end in `effect`. -/
theorem resultDependsOnlyOnReadFootprint : Obligations.ResultDependsOnlyOnReadFootprint := by
  intro s m i hs hm hk hd hagree
  refine ⟨effect i s, effect i { s with mem := m }, exec_pass hk hd, exec_pass (s := { s with mem := m }) hk hd, ?_, ?_,
    fun a ha => effect_read_congr hs hm hd hagree ha⟩
  · rw [effect_ctxs, effect_ctxs, contextEffect_congr hs hm hd hagree hk]
  · rw [effect_status, effect_status]

/-! ## The stops of a range -/

section
variable {s : State} {a n : Nat} (k : Result)

theorem State.withRange_wraps (h : memTop < a + n) : s.withRange a n k = .refused .rangeWraps := by
  rw [State.withRange, if_neg fun hp => Nat.not_lt.mpr hp.1 h, if_pos h]

theorem State.withRange_device (htop : a + n ≤ memTop) (h : ∃ j, j < n ∧ s.kindAt (a + j) = some .device) :
    s.withRange a n k = .refused .deviceMemory := by
  obtain ⟨j, hj, hdev⟩ := h
  have hplain : ¬ s.PlainRange a n := fun hp => nomatch hdev.symm.trans (hp.2 j hj)
  have hany : (List.range n).any (fun i => decide (s.kindAt (a + i) = some .device)) = true :=
    List.any_eq_true.mpr ⟨j, List.mem_range.mpr hj, decide_eq_true hdev⟩
  rw [State.withRange, if_neg hplain, if_neg (Nat.not_lt.mpr htop), if_pos hany]

theorem State.withRange_notAdmitted (htop : a + n ≤ memTop) (h : ∃ j, j < n ∧ s.kindAt (a + j) = none)
    (hdev : ∀ j, j < n → s.kindAt (a + j) ≠ some .device) : s.withRange a n k = .fault .notAdmitted := by
  obtain ⟨j, hj, hnone⟩ := h
  have hplain : ¬ s.PlainRange a n := fun hp => nomatch hnone.symm.trans (hp.2 j hj)
  have hany : ¬ (List.range n).any (fun i => decide (s.kindAt (a + i) = some .device)) = true := by
    simpa using hdev
  rw [State.withRange, if_neg hplain, if_neg (Nat.not_lt.mpr htop), if_neg hany]

end

/-! ## The stops of a command -/

/-- A command that passes its checks first looks at its read range, then at its write range; where it has no such bytes the
look at the empty range changes nothing. -/
theorem exec_eq_withRange {s : State} {i : Instr} (h : s.checkCommand i = none) :
    ∃ k, exec i s = s.withRange (readRange i).1 (readRange i).2 (s.withRange (writeRange i).1 (writeRange i).2 k) := by
  cases i with
  | process => exact ⟨_, State.guarded_pass h _⟩
  | savectx ctx addr =>
    exact ⟨_, (State.guarded_pass h _).trans (State.withRange_plain (s.plainRange_empty addr) _).symm⟩
  | setkey ctx addr | setiv ctx addr | loadctx ctx addr =>
    exact ⟨_, (State.guarded_pass h _).trans (congrArg _ (State.withRange_plain (s.plainRange_empty addr) _).symm)⟩

/-- A command that passes its checks and may read its read range is stopped by its write range, if at all. -/
theorem exec_eq_withRange_write {s : State} {i : Instr} (h : s.checkCommand i = none)
    (hr : s.PlainRange (readRange i).1 (readRange i).2) :
    ∃ k, exec i s = s.withRange (writeRange i).1 (writeRange i).2 k := by
  obtain ⟨k, hk⟩ := exec_eq_withRange h
  exact ⟨k, hk.trans (State.withRange_plain hr _)⟩

theorem exec_completes_iff {s : State} {i : Instr} (h : s.checkCommand i = none) :
    (∃ t, exec i s = .next t) ↔ s.DutiesMet i := by
  constructor
  · rintro ⟨t, ht⟩
    obtain ⟨k, hfail, -⟩ | ⟨-, hd, -⟩ := exec_next_iff.mp ht
    · rw [h] at hfail; cases hfail
    · exact hd
  · exact fun hd => ⟨_, exec_pass h hd⟩

/-- A `PROCESS` has no length to check and exists with and without the snapshot commands. -/
theorem State.checkCommand_process {s : State} {ctx : CtxNum} (h : ctx.toNat < s.nctx) (outAddr inAddr length : Word) :
    s.checkCommand (.process ctx outAddr inAddr length) = none :=
  State.checkCommand_eq_none_iff.mpr ⟨rfl, h, rfl⟩

theorem exec_process_partialOverlap {s : State} {ctx : CtxNum} {outAddr inAddr length : Word} (hctx : ctx.toNat < s.nctx)
    (hin : s.PlainRange inAddr.toNat length.toNat) (hout : s.PlainRange outAddr.toNat length.toNat)
    (hov : ¬ SupportedOverlap outAddr.toNat inAddr.toNat length.toNat) :
    exec (.process ctx outAddr inAddr length) s = .refused .partialOverlap := by
  rw [exec, execProcess, State.guarded_pass (s.checkCommand_process hctx ..), State.withRange_plain hin,
    State.withRange_plain hout, if_neg hov]

/-- Settles O38: each stop of the read range, each of the write range, and the overlap. -/
theorem stopsOnlyOnBrokenDuties : Obligations.StopsOnlyOnBrokenDuties := by
  refine ⟨fun _ _ h => exec_completes_iff h, ?readWraps, ?writeWraps, ?readDevice, ?readNotAdmitted, ?writeDevice,
    ?writeNotAdmitted, fun _ _ _ _ _ hctx hin hout hov => exec_process_partialOverlap hctx hin hout hov⟩
  case readWraps =>
    exact fun s i h hw => let ⟨_, hk⟩ := exec_eq_withRange h
      hk.trans (State.withRange_wraps _ hw)
  case writeWraps =>
    exact fun s i h hr hw => let ⟨_, hk⟩ := exec_eq_withRange_write h hr
      hk.trans (State.withRange_wraps _ hw)
  case readDevice =>
    exact fun s i h htop hdev => let ⟨_, hk⟩ := exec_eq_withRange h
      hk.trans (State.withRange_device _ htop hdev)
  case readNotAdmitted =>
    exact fun s i h htop hnone hdev => let ⟨_, hk⟩ := exec_eq_withRange h
      hk.trans (State.withRange_notAdmitted _ htop hnone hdev)
  case writeDevice =>
    exact fun s i h hr htop hdev => let ⟨_, hk⟩ := exec_eq_withRange_write h hr
      hk.trans (State.withRange_device _ htop hdev)
  case writeNotAdmitted =>
    exact fun s i h hr htop hnone hdev => let ⟨_, hk⟩ := exec_eq_withRange_write h hr
      hk.trans (State.withRange_notAdmitted _ htop hnone hdev)

end Sys2Proof.Machine
end

section
/-! PROOFS. What the host does to a core that may have a command in flight: its stores and loads (spec 20_memory R30 to R32,
R37, R41) and the acceptance of the command it presents (R46, R50, R135). -/

namespace Sys2Proof.Machine

/-! ## Stores and loads -/

theorem step_store {s : State} {a : Word} {b : Byte} {rest : List HostAct} (h : s.host = .store a b :: rest) :
    step s = hostStore a b { s with host := rest } := by
  rw [step, h]

theorem step_load {s : State} {a : Word} {rest : List HostAct} (h : s.host = .load a :: rest) :
    step s = hostLoad a { s with host := rest } := by
  rw [step, h]

theorem State.inReadFootprint_of_inFlight {s : State} {i : Instr} (h : s.inFlight = some i) (a : Nat) :
    s.inReadFootprint a = decide (InRange (readRange i) a) := by
  rw [State.inReadFootprint, h]

theorem State.inWriteFootprint_of_inFlight {s : State} {i : Instr} (h : s.inFlight = some i) (a : Nat) :
    s.inWriteFootprint a = decide (InRange (writeRange i) a) := by
  rw [State.inWriteFootprint, h]

theorem hostStore_race {s : State} {i : Instr} (hi : s.inFlight = some i) {a : Word}
    (h : InRange (readRange i) a.toNat ∨ InRange (writeRange i) a.toNat) (b : Byte) :
    hostStore a b s = .refused .bufferRace := by
  rw [hostStore, State.inReadFootprint_of_inFlight hi, State.inWriteFootprint_of_inFlight hi, if_pos (by simpa using h)]

theorem hostLoad_race {s : State} {i : Instr} (hi : s.inFlight = some i) {a : Word} (h : InRange (writeRange i) a.toNat) :
    hostLoad a s = .refused .bufferRace := by
  rw [hostLoad, State.inWriteFootprint_of_inFlight hi, if_pos (decide_eq_true h)]

/-- Settles O39: the host's list plays no part in what is in flight. -/
theorem hostRaceIsRefused : Obligations.HostRaceIsRefused := by
  intro s d i a rest hc hdec hk
  have hi : State.inFlight { s with host := rest } = some i := State.inFlight_eq_some_iff.mpr ⟨d, hc, hdec, hk⟩
  exact ⟨fun b hh hrange => (step_store hh).trans (hostStore_race hi hrange b),
    fun hh hrange => (step_load hh).trans (hostLoad_race hi hrange)⟩

/-- One byte of plain memory is a plain range: an address is below the top. -/
theorem State.plainRange_one {s : State} {a : Word} (h : s.kindAt a.toNat = some .plain) : s.PlainRange a.toNat 1 := by
  refine ⟨a.isLt, fun j hj => ?_⟩
  obtain rfl : j = 0 := Nat.lt_one_iff.mp hj
  exact h

theorem hostStore_plain {s : State} {a : Word} (hp : s.kindAt a.toNat = some .plain)
    (hr : s.inReadFootprint a.toNat = false) (hw : s.inWriteFootprint a.toNat = false) (b : Byte) :
    hostStore a b s = .next { s with mem := s.mem.write a.toNat b } := by
  rw [hostStore, hr, hw, if_neg (by simp), State.withRange_plain (State.plainRange_one hp)]

theorem hostLoad_plain {s : State} {a : Word} (hp : s.kindAt a.toNat = some .plain)
    (hw : s.inWriteFootprint a.toNat = false) : hostLoad a s = .next { s with loadData := s.mem.read a.toNat } := by
  rw [hostLoad, hw, if_neg (by simp), State.withRange_plain (State.plainRange_one hp)]

/-- Settles O40. -/
theorem hostStoreWritesOneByte : Obligations.HostStoreWritesOneByte := by
  intro s a b rest hm hh hp hout
  have hr : State.inReadFootprint { s with host := rest } a.toNat = false :=
    State.inReadFootprint_eq_false fun d i hc hdec hk => (hout d i hc hdec hk).1
  have hw : State.inWriteFootprint { s with host := rest } a.toNat = false :=
    State.inWriteFootprint_eq_false fun d i hc hdec hk => (hout d i hc hdec hk).2
  exact ⟨s.mem.write a.toNat b, (step_store hh).trans (hostStore_plain (s := { s with host := rest }) hp hr hw b),
    Memory.read_write_self hm _ b, fun x hx => Memory.read_write_other s.mem hx b⟩

/-- Settles O41. -/
theorem hostLoadReturnsByte : Obligations.HostLoadReturnsByte := by
  intro s a rest hh hp hout
  have hw : State.inWriteFootprint { s with host := rest } a.toNat = false := State.inWriteFootprint_eq_false hout
  exact (step_load hh).trans (hostLoad_plain (s := { s with host := rest }) hp hw)

/-! ## Acceptance -/

theorem State.cmdReady_iff {s : State} : s.cmdReady = true ↔ s.captured = none ∧ s.rst = false := by
  simp [State.cmdReady, State.busy]

theorem State.offer_ready {s : State} (h : s.rst = false) (d : Command) (rest : List HostAct) :
    s.offer d rest = { s with host := rest }.accept d := by
  simp [State.offer, h]

theorem step_present_idle {s : State} {d : Command} {rest : List HostAct} (hh : s.host = .present d :: rest)
    (hc : s.captured = none) : step s = .next (s.offer d rest) := by
  simp only [step, hh, coreTurn, hc]

/-- Settles O7. -/
theorem acceptanceCapturesCommand : Obligations.AcceptanceCapturesCommand := by
  intro s d rest hh hready
  obtain ⟨hc, hrst⟩ := State.cmdReady_iff.mp hready
  rw [step_present_idle hh hc, State.offer_ready hrst]
  rfl

end Sys2Proof.Machine
end

section
/-! PROOFS. The encoding of the commands (spec 30_encoding R51 to R60): a word is its six fields, decoding and encoding are
inverse to each other, the rows of the opcode map, and the illegal words. -/

namespace Sys2Proof

/-! ## The fields of a word (R51) -/

/-- The six fields, the most significant first, are the whole word. -/
theorem append_fields (d : Command) :
    operandC d ++ operandB d ++ operandA d ++ rsv0Of d ++ ctxOf d ++ opcodeOf d = d := by
  unfold operandC operandB operandA rsv0Of ctxOf opcodeOf
  iterate 5 rw [BitVec.extractLsb'_append_extractLsb'_eq_extractLsb' (by decide)]
  exact BitVec.extractLsb'_eq_self

/-- A word is its six fields, and no others give it. -/
theorem append_eq_iff {op : BitVec 8} {ctx : CtxNum} {rsv0 : BitVec 16} {a b c : Word} {d : Command} :
    c ++ b ++ a ++ rsv0 ++ ctx ++ op = d ↔ opcodeOf d = op ∧ ctxOf d = ctx ∧ rsv0Of d = rsv0 ∧
      operandA d = a ∧ operandB d = b ∧ operandC d = c := by
  constructor
  · rintro rfl
    refine ⟨BitVec.extractLsb'_append_eq_right, ?ctx, ?rsv0, ?opA, ?opB, ?opC⟩
    case ctx =>
      exact (BitVec.extractLsb'_append_eq_of_le (by decide)).trans BitVec.extractLsb'_append_eq_right
    case rsv0 =>
      unfold rsv0Of
      iterate 2 rw [BitVec.extractLsb'_append_eq_of_le (by decide)]
      exact BitVec.extractLsb'_append_eq_right
    case opA =>
      unfold operandA
      iterate 3 rw [BitVec.extractLsb'_append_eq_of_le (by decide)]
      exact BitVec.extractLsb'_append_eq_right
    case opB =>
      unfold operandB
      iterate 4 rw [BitVec.extractLsb'_append_eq_of_le (by decide)]
      exact BitVec.extractLsb'_append_eq_right
    case opC =>
      unfold operandC
      iterate 5 rw [BitVec.extractLsb'_append_eq_of_le (by decide)]
      exact BitVec.extractLsb'_eq_self
  · rintro ⟨rfl, rfl, rfl, rfl, rfl, rfl⟩
    exact append_fields d

theorem pack_eq_iff {op : BitVec 8} {ctx : CtxNum} {a b c : Word} {d : Command} :
    pack op ctx a b c = d ↔ opcodeOf d = op ∧ ctxOf d = ctx ∧ rsv0Of d = 0 ∧
      operandA d = a ∧ operandB d = b ∧ operandC d = c :=
  append_eq_iff

@[simp] theorem fields_pack (op : BitVec 8) (ctx : CtxNum) (a b c : Word) :
    opcodeOf (pack op ctx a b c) = op ∧ ctxOf (pack op ctx a b c) = ctx ∧ rsv0Of (pack op ctx a b c) = 0 ∧
      operandA (pack op ctx a b c) = a ∧ operandB (pack op ctx a b c) = b ∧ operandC (pack op ctx a b c) = c :=
  pack_eq_iff.mp rfl

/-! ## The procedure of R60, case by case -/

section
variable {en : Bool} {d : Command}

theorem decode_reserved0 (h : rsv0Of d ≠ 0) : decode en d = .error .reserved0 := if_pos h

theorem decode_setkey (h : rsv0Of d = 0) (hop : opcodeOf d = 0x01) : decode en d = decodeFormK d := by
  simp [decode, h, hop]

theorem decode_setiv (h : rsv0Of d = 0) (hop : opcodeOf d = 0x02) : decode en d = decodeFormV d := by
  simp [decode, h, hop]

theorem decode_process (h : rsv0Of d = 0) (hop : opcodeOf d = 0x03) : decode en d = decodeFormP d := by
  simp [decode, h, hop]

theorem decode_savectx (h : rsv0Of d = 0) (hop : opcodeOf d = 0x04) :
    decode en d = decodeFormS en d .savectx := by
  simp [decode, h, hop]

theorem decode_loadctx (h : rsv0Of d = 0) (hop : opcodeOf d = 0x05) :
    decode en d = decodeFormS en d .loadctx := by
  simp [decode, h, hop]

theorem decode_unassigned (h : rsv0Of d = 0) (hop : opcodeOf d = 0 ∨ 0x06 ≤ (opcodeOf d).toNat) :
    decode en d = .error .opcode := by
  obtain ⟨h1, h2, h3, h4, h5⟩ : opcodeOf d ≠ 0x01 ∧ opcodeOf d ≠ 0x02 ∧ opcodeOf d ≠ 0x03 ∧ opcodeOf d ≠ 0x04 ∧
      opcodeOf d ≠ 0x05 := by bv_omega
  rw [decode, if_neg (not_not.mpr h), if_neg h1, if_neg h2, if_neg h3, if_neg h4, if_neg h5]

/-- The rows of the opcode map (R53, first table). -/
theorem opcode_cases (op : BitVec 8) :
    (op = 0 ∨ 0x06 ≤ op.toNat) ∨ op = 0x01 ∨ op = 0x02 ∨ op = 0x03 ∨ op = 0x04 ∨ op = 0x05 := by
  bv_omega

/-! The forms (R52): what each accepts and what it refuses. -/

theorem decodeFormK_eq_ok_iff {i : Instr} :
    decodeFormK d = .ok i ↔ operandC d = 0 ∧ .setkey (ctxOf d) (operandA d) (operandB d) = i := by
  unfold decodeFormK; split_ifs with h <;> simp_all

theorem decodeFormK_error_iff : (∃ r, decodeFormK d = .error r) ↔ operandC d ≠ 0 := by
  unfold decodeFormK; split_ifs with h <;> simp_all

theorem decodeFormS_eq_ok_iff {mk : CtxNum → Word → Instr} {i : Instr} :
    decodeFormS en d mk = .ok i ↔
      en = true ∧ operandB d = 0 ∧ operandC d = 0 ∧ mk (ctxOf d) (operandA d) = i := by
  unfold decodeFormS; split_ifs with hen h <;> simp_all

theorem decodeFormS_error_iff {mk : CtxNum → Word → Instr} :
    (∃ r, decodeFormS en d mk = .error r) ↔ en = false ∨ operandB d ≠ 0 ∨ operandC d ≠ 0 := by
  unfold decodeFormS; split_ifs with hen h <;> simp_all [imp_iff_not_or]

end

/-! ## Decoding and encoding are inverse to each other -/

theorem decode_encode {en : Bool} {i : Instr} (h : i.wf en = true) : decode en (encode i) = .ok i := by
  cases i with
  | setkey => simp [encode, decode_setkey, decodeFormK]
  | setiv => simp [encode, decode_setiv, decodeFormV]
  | process => simp [encode, decode_process, decodeFormP]
  | savectx =>
    obtain rfl : en = true := h
    simp [encode, decode_savectx, decodeFormS]
  | loadctx =>
    obtain rfl : en = true := h
    simp [encode, decode_loadctx, decodeFormS]

theorem encode_eq_and_wf_of_decode {en : Bool} {d : Command} {i : Instr} (h : decode en d = .ok i) :
    encode i = d ∧ i.wf en = true := by
  by_cases h0 : rsv0Of d = 0
  case neg => rw [decode_reserved0 h0] at h; cases h
  obtain hop | hop | hop | hop | hop | hop := opcode_cases (opcodeOf d)
  · rw [decode_unassigned h0 hop] at h; cases h
  · rw [decode_setkey h0 hop] at h
    obtain ⟨hC, rfl⟩ := decodeFormK_eq_ok_iff.mp h
    exact ⟨pack_eq_iff.mpr ⟨hop, rfl, h0, rfl, rfl, hC⟩, rfl⟩
  · rw [decode_setiv h0 hop] at h
    obtain rfl := Except.ok.inj h
    exact ⟨pack_eq_iff.mpr ⟨hop, rfl, h0, rfl, rfl, rfl⟩, rfl⟩
  · rw [decode_process h0 hop] at h
    obtain rfl := Except.ok.inj h
    exact ⟨pack_eq_iff.mpr ⟨hop, rfl, h0, rfl, rfl, rfl⟩, rfl⟩
  · rw [decode_savectx h0 hop] at h
    obtain ⟨hen, hB, hC, rfl⟩ := decodeFormS_eq_ok_iff.mp h
    exact ⟨pack_eq_iff.mpr ⟨hop, rfl, h0, rfl, hB, hC⟩, hen⟩
  · rw [decode_loadctx h0 hop] at h
    obtain ⟨hen, hB, hC, rfl⟩ := decodeFormS_eq_ok_iff.mp h
    exact ⟨pack_eq_iff.mpr ⟨hop, rfl, h0, rfl, hB, hC⟩, hen⟩

/-- Settles O1. -/
theorem decodeOfEncodeIsIdentity : Obligations.DecodeOfEncodeIsIdentity := fun _ _ h => decode_encode h

/-- Settles O2. -/
theorem decodedCommandReencodes : Obligations.DecodedCommandReencodes := fun _ _ _ h => encode_eq_and_wf_of_decode h

/-- Settles O5: a legal word is the encoding of the instruction given for it; an illegal one is decoded. -/
theorem specEncodingVectorsDecode : Obligations.SpecEncodingVectorsDecode := by
  have legal {d : Command} {i : Instr} (hd : encode i = d) (hw : i.wf true = true) : decode true d = .ok i :=
    hd ▸ decode_encode hw
  exact ⟨legal (by decide) rfl, legal (by decide) rfl, legal (by decide) rfl, legal (by decide) rfl,
    legal (by decide) rfl, legal (by decide) rfl, by decide, by decide, by decide⟩

/-! ## Mask and match (R53) -/

/-- The command of the name of `i` with the operands the word `d` holds. -/
def Instr.withOperandsOf (i : Instr) (d : Command) : Instr :=
  match i with
  | .setkey _ _ _ => .setkey (ctxOf d) (operandA d) (operandB d)
  | .setiv _ _ _ _ => .setiv (ctxOf d) (operandA d) (operandB d) (operandC d)
  | .process _ _ _ _ => .process (ctxOf d) (operandA d) (operandB d) (operandC d)
  | .savectx _ _ => .savectx (ctxOf d) (operandA d)
  | .loadctx _ _ => .loadctx (ctxOf d) (operandA d)

@[simp] theorem Instr.withOperandsOf_row (i : Instr) (d : Command) : (i.withOperandsOf d).row = i.row := by
  cases i <;> rfl

@[simp] theorem Instr.withOperandsOf_wf (i : Instr) (d : Command) (en : Bool) :
    (i.withOperandsOf d).wf en = i.wf en := by
  cases i <;> rfl

theorem Instr.withOperandsOf_encode (i : Instr) : i.withOperandsOf (encode i) = i := by
  cases i <;> simp [Instr.withOperandsOf, encode]

/-- What a mask of R53 compares: `OPCODE`, `RSV0`, and the operand words `B` and `C` where it holds ones. -/
theorem and_mask_eq_pack_iff {d : Command} {op : BitVec 8} (b c : Word) :
    d &&& (c ++ b ++ 0#32 ++ BitVec.allOnes 16 ++ 0#8 ++ BitVec.allOnes 8) = pack op 0 0 0 0 ↔
      opcodeOf d = op ∧ rsv0Of d = 0 ∧ operandB d &&& b = 0 ∧ operandC d &&& c = 0 := by
  have hand : (operandC d &&& c) ++ (operandB d &&& b) ++ 0#32 ++ rsv0Of d ++ 0#8 ++ opcodeOf d =
      d &&& (c ++ b ++ 0#32 ++ BitVec.allOnes 16 ++ 0#8 ++ BitVec.allOnes 8) := by
    conv_rhs => rw [← append_fields d]
    iterate 5 rw [BitVec.and_append]
    simp only [BitVec.and_allOnes, BitVec.and_zero]
  obtain ⟨hop, hctx, hrsv0, hA, hB, hC⟩ := append_eq_iff.mp hand
  rw [eq_comm, pack_eq_iff, hop, hctx, hrsv0, hA, hB, hC]
  simp

/-- A word matches the row of a command exactly when it is the word of a command of that name. -/
theorem and_mask_eq_pattern_iff (i : Instr) (d : Command) :
    d &&& i.row.mask = i.row.pattern ↔ encode (i.withOperandsOf d) = d := by
  cases i with
  | setkey =>
    refine (and_mask_eq_pack_iff (op := 0x01) 0#32 (BitVec.allOnes 32)).trans ?_
    simp only [Instr.withOperandsOf, encode, pack_eq_iff, BitVec.and_zero, BitVec.and_allOnes,
      BitVec.ofNat_eq_ofNat, true_and]
  | setiv =>
    refine (and_mask_eq_pack_iff (op := 0x02) 0#32 0#32).trans ?_
    simp only [Instr.withOperandsOf, encode, pack_eq_iff, BitVec.and_zero, BitVec.ofNat_eq_ofNat, true_and, and_true]
  | process =>
    refine (and_mask_eq_pack_iff (op := 0x03) 0#32 0#32).trans ?_
    simp only [Instr.withOperandsOf, encode, pack_eq_iff, BitVec.and_zero, BitVec.ofNat_eq_ofNat, true_and, and_true]
  | savectx =>
    refine (and_mask_eq_pack_iff (op := 0x04) (BitVec.allOnes 32) (BitVec.allOnes 32)).trans ?_
    simp only [Instr.withOperandsOf, encode, pack_eq_iff, BitVec.and_allOnes, true_and]
  | loadctx =>
    refine (and_mask_eq_pack_iff (op := 0x05) (BitVec.allOnes 32) (BitVec.allOnes 32)).trans ?_
    simp only [Instr.withOperandsOf, encode, pack_eq_iff, BitVec.and_allOnes, true_and]

/-- A word decodes to a command of the name of `i` exactly when it matches the row of `i`. -/
theorem decode_named_iff {en : Bool} {d : Command} {i : Instr} (h : i.wf en = true) :
    (∃ j, decode en d = .ok j ∧ j.row = i.row) ↔ d &&& i.row.mask = i.row.pattern := by
  constructor
  · rintro ⟨j, hj, hrow⟩
    obtain ⟨rfl, -⟩ := encode_eq_and_wf_of_decode hj
    rw [← hrow, and_mask_eq_pattern_iff, j.withOperandsOf_encode]
  · intro hm
    refine ⟨i.withOperandsOf d, ?_, i.withOperandsOf_row d⟩
    have hd := decode_encode (i := i.withOperandsOf d) ((i.withOperandsOf_wf d en).trans h)
    rwa [(and_mask_eq_pattern_iff i d).mp hm] at hd

/-- Settles O3: a word that matches no row cannot decode, since it would match the row of what it decodes to. -/
theorem decodeIsMaskAndMatch : Obligations.DecodeIsMaskAndMatch := by
  refine ⟨fun en d i hw => decode_named_iff hw, fun en d => ⟨?error, ?noRow⟩⟩
  case error =>
    rintro ⟨r, hr⟩ i hw hm
    obtain ⟨j, hj, -⟩ := (decode_named_iff hw).mpr hm
    rw [hr] at hj
    cases hj
  case noRow =>
    intro hno
    cases hd : decode en d with
    | error r => exact ⟨r, rfl⟩
    | ok j =>
      obtain ⟨-, hw⟩ := encode_eq_and_wf_of_decode hd
      exact absurd ((decode_named_iff hw).mp ⟨j, hd, rfl⟩) (hno j hw)

/-! ## Illegal words (R55) -/

theorem decode_error_iff (en : Bool) (d : Command) :
    (∃ r, decode en d = .error r) ↔
      (opcodeOf d = 0x00 ∨ 0x06 ≤ (opcodeOf d).toNat) ∨
      ((opcodeOf d = 0x04 ∨ opcodeOf d = 0x05) ∧ en = false) ∨
      rsv0Of d ≠ 0 ∨
      (opcodeOf d = 0x01 ∧ operandC d ≠ 0) ∨
      ((opcodeOf d = 0x04 ∨ opcodeOf d = 0x05) ∧ (operandB d ≠ 0 ∨ operandC d ≠ 0)) := by
  by_cases h0 : rsv0Of d = 0
  case neg => exact ⟨fun _ => .inr (.inr (.inl h0)), fun _ => ⟨_, decode_reserved0 h0⟩⟩
  obtain hop | hop | hop | hop | hop | hop := opcode_cases (opcodeOf d)
  · exact ⟨fun _ => .inl hop, fun _ => ⟨_, decode_unassigned h0 hop⟩⟩
  · rw [decode_setkey h0 hop, decodeFormK_error_iff]
    simp [h0, hop]
  · simp [decode_setiv h0 hop, decodeFormV, h0, hop]
  · simp [decode_process h0 hop, decodeFormP, h0, hop]
  · rw [decode_savectx h0 hop, decodeFormS_error_iff]
    simp [h0, hop]
  · rw [decode_loadctx h0 hop, decodeFormS_error_iff]
    simp [h0, hop]

end Sys2Proof

namespace Sys2Proof.Machine

theorem runCommand_illegal {d : Command} {s : State} (h : ∃ r, decode s.cfg.snapshotEn d = .error r) :
    runCommand d s = .next (s.completeErr .illegalCmd) := by
  obtain ⟨r, hr⟩ := h
  rw [runCommand, hr]

theorem runCommand_legal {d : Command} {s : State} {i : Instr} (h : decode s.cfg.snapshotEn d = .ok i) :
    runCommand d s = exec i s := by
  rw [runCommand, h]

/-- Settles O4. -/
theorem illegalCommandsFailWithCauseFour : Obligations.IllegalCommandsFailWithCauseFour :=
  ⟨decode_error_iff, fun _ _ hwaits hc hr => (step_of_waits hwaits hc).trans (runCommand_illegal hr)⟩

end Sys2Proof.Machine
end

section
/-! PROOFS. The command port while a command executes and while `rst` is asserted (spec 30_encoding R50, R60;
70_reset_and_hazards R150, R156). -/

namespace Sys2Proof.Machine

/-- Settles O6. -/
theorem stepRunsCapturedCommand : Obligations.StepRunsCapturedCommand :=
  fun _ _ _ hwaits hc hi => (step_of_waits hwaits hc).trans (runCommand_legal hi)

/-- A command that completes leaves the port as it is and is no longer in flight. -/
theorem runCommand_host_captured {d : Command} {s t : State} (h : runCommand d s = .next t) :
    t.host = s.host ∧ t.captured = none := by
  obtain ⟨-, -, rfl⟩ | ⟨i, -, he⟩ := runCommand_next_iff.mp h
  · exact ⟨rfl, rfl⟩
  obtain ⟨-, -, rfl⟩ | ⟨-, -, rfl⟩ := exec_next_iff.mp he
  · exact ⟨rfl, rfl⟩
  · exact ⟨effect_host i s, effect_captured i s⟩

theorem State.hostWaits_of_present {s : State} {d : Command} {rest : List HostAct} (h : s.host = .present d :: rest) :
    s.hostWaits = true := by
  rw [State.hostWaits, h]

/-- Settles O9. -/
theorem secondCommandWaitsOnPort : Obligations.SecondCommandWaitsOnPort := by
  intro s t c d rest hc hh hstep
  have hrun : runCommand c s = .next t := (step_of_waits (State.hostWaits_of_present hh) hc).symm.trans hstep
  obtain ⟨hhost, hcapt⟩ := runCommand_host_captured hrun
  exact ⟨hhost.trans hh, hcapt, hrun⟩

theorem State.cmdReady_eq_false_of_rst {s : State} (h : s.rst = true) : s.cmdReady = false := by
  simp [State.cmdReady, h]

theorem State.offer_of_rst {s : State} (h : s.rst = true) (d : Command) (rest : List HostAct) : s.offer d rest = s :=
  if_pos h

theorem step_releaseReset {s : State} {rest : List HostAct} (h : s.host = .releaseReset :: rest) :
    step s = .next { s with host := rest, rst := false } := by
  rw [step, h]

/-- Settles O43. -/
theorem noCommandAcceptedWhileReset : Obligations.NoCommandAcceptedWhileReset := by
  refine ⟨fun s d rest hrst hc hh => ⟨State.cmdReady_eq_false_of_rst hrst, ?_⟩, fun _ _ hh => step_releaseReset hh⟩
  rw [step_present_idle hh hc, State.offer_of_rst hrst]

end Sys2Proof.Machine
end

section
/-! PROOFS. The word primitives: addition, the rotation as a move of bits, and the little-endian conversions (spec 40_primitives
R70 to R74). -/

namespace Sys2Proof.Machine

/-! ## Addition (R70) -/

theorem toNat_add32 (a b : Word) : (add32 a b).toNat = (a.toNat + b.toNat) % 2 ^ 32 :=
  BitVec.toNat_add a b

/-- Settles O46. -/
theorem addIsModulo : Obligations.AddIsModulo := toNat_add32

/-! ## Rotation (R72) -/

/-- The two shifts of the source are the library's rotation: no distance below 32 is reduced. -/
theorem rotl32_eq_rotateLeft (v : Word) {n : Nat} (hn : n < 32) : rotl32 v n = v.rotateLeft n := by
  rw [BitVec.rotateLeft_def, Nat.mod_eq_of_lt hn, rotl32]

theorem getLsbD_rotl32 (v : Word) {n i : Nat} (hn : n < 32) (hi : i < 32) :
    (rotl32 v n).getLsbD ((i + n) % 32) = v.getLsbD i := by
  rw [rotl32_eq_rotateLeft v hn, BitVec.getLsbD_rotateLeft, Nat.mod_eq_of_lt hn]
  obtain hlow | hwrap := Nat.lt_or_ge (i + n) 32
  · simp [Nat.mod_eq_of_lt hlow, hlow]
  · have hmod : (i + n) % 32 = i + n - 32 := by omega
    have hlt : i + n - 32 < n := by omega
    have hback : 32 - n + (i + n - 32) = i := by omega
    simp [hmod, hlt, hback]

/-- Settles O47; the distance 0, which R72 leaves out, would do as well. -/
theorem rotateMovesEachBit : Obligations.RotateMovesEachBit :=
  fun v _ _ _ hn hi => getLsbD_rotl32 v (by omega) hi

/-! ## Little-endian conversions (R73, R74) -/

theorem toNat_append_eq_add {m n : Nat} (hi : BitVec m) (lo : BitVec n) :
    (hi ++ lo).toNat = hi.toNat * 2 ^ n + lo.toNat := by
  rw [BitVec.toNat_append, ← Nat.shiftLeft_add_eq_or_of_lt lo.isLt, Nat.shiftLeft_eq]

theorem toNat_le32 (b0 b1 b2 b3 : Byte) :
    (le32 b0 b1 b2 b3).toNat = b0.toNat + 2 ^ 8 * b1.toNat + 2 ^ 16 * b2.toNat + 2 ^ 24 * b3.toNat := by
  simp only [le32, toNat_append_eq_add]
  omega

/-- Byte `j` is the slice of eight bits at `8 * j`. -/
theorem getElem_bytesLE (v : Word) (j : Fin 4) : (bytesLE v)[j] = v.extractLsb' (8 * j.val) 8 :=
  match j with
  | 0 | 1 | 2 | 3 => rfl

theorem toNat_getElem_bytesLE (v : Word) (j : Fin 4) :
    ((bytesLE v)[j]).toNat = v.toNat / 2 ^ (8 * j.val) % 2 ^ 8 := by
  rw [getElem_bytesLE, BitVec.extractLsb'_toNat, Nat.shiftRight_eq_div_pow]

/-- The four slices are adjacent and cover the word. -/
@[simp] theorem le32_bytesLE (v : Word) :
    le32 (bytesLE v)[0] (bytesLE v)[1] (bytesLE v)[2] (bytesLE v)[3] = v := by
  change v.extractLsb' 24 8 ++ v.extractLsb' 16 8 ++ v.extractLsb' 8 8 ++ v.extractLsb' 0 8 = v
  iterate 3 rw [BitVec.extractLsb'_append_extractLsb'_eq_extractLsb' (by decide)]
  exact BitVec.extractLsb'_eq_self

/-- Each slice of the concatenation is one of the bytes: those below its start are skipped, those above it cut off. -/
@[simp] theorem bytesLE_le32 (b0 b1 b2 b3 : Byte) : bytesLE (le32 b0 b1 b2 b3) = #v[b0, b1, b2, b3] := by
  have h0 : (le32 b0 b1 b2 b3).extractLsb' 0 8 = b0 := BitVec.extractLsb'_append_eq_right
  have h1 : (le32 b0 b1 b2 b3).extractLsb' 8 8 = b1 :=
    (BitVec.extractLsb'_append_eq_of_le (by decide)).trans BitVec.extractLsb'_append_eq_right
  have h2 : (le32 b0 b1 b2 b3).extractLsb' 16 8 = b2 := by
    unfold le32
    iterate 2 rw [BitVec.extractLsb'_append_eq_of_le (by decide)]
    exact BitVec.extractLsb'_append_eq_right
  have h3 : (le32 b0 b1 b2 b3).extractLsb' 24 8 = b3 := by
    unfold le32
    iterate 3 rw [BitVec.extractLsb'_append_eq_of_le (by decide)]
    exact BitVec.extractLsb'_eq_self
  simp only [bytesLE, h0, h1, h2, h3]

/-- Settles O48. -/
theorem littleEndianConversions : Obligations.LittleEndianConversions :=
  ⟨toNat_le32, toNat_getElem_bytesLE, le32_bytesLE, bytesLE_le32⟩

end Sys2Proof.Machine
end

section
/-! PROOFS. The key/nonce scheduler: the words `SETKEY` and `SETIV` leave in a context, each command in full, and the two in
either order (spec 41_scheduler R80 to R87). -/

namespace Sys2Proof.Machine

/-! ## The words `SETKEY` leaves (R80 to R82) -/

section
variable (x : Block) (k : Vector Word 4) (m : Memory) (a b : Nat) (i : Fin 4)

theorem keyBlock_constant : (keyBlock x k m a b)[i.val] = k[i.val] := by
  simp [keyBlock]

theorem keyBlock_first : (keyBlock x k m a b)[4 + i.val] = loadWord m (a + 4 * i.val) := by
  have hgroup : ¬ 4 + i.val < 4 ∧ 4 + i.val < 8 := by omega
  simp [keyBlock, hgroup]

theorem keyBlock_second : (keyBlock x k m a b)[8 + i.val] = loadWord m (b + 4 * i.val) := by
  have hgroup : ¬ 8 + i.val < 4 ∧ ¬ 8 + i.val < 8 ∧ 8 + i.val < 12 := by omega
  simp [keyBlock, hgroup]

end

section
variable (cfg : Config) (m : Memory) (keyAddr keyLen : Word) (x : Block)

theorem keyWords_of_32 : keyWords cfg m keyAddr 32 x = keyBlock x cfg.const32 m keyAddr.toNat (keyAddr.toNat + 16) :=
  if_pos rfl

theorem keyWords_of_16 : keyWords cfg m keyAddr 16 x = keyBlock x cfg.const16 m keyAddr.toNat keyAddr.toNat :=
  if_neg (by decide)

theorem keyWords_constant (i : Fin 4) :
    (keyWords cfg m keyAddr keyLen x)[i.val] = if keyLen = 32 then cfg.const32[i.val] else cfg.const16[i.val] := by
  unfold keyWords
  split_ifs <;> exact keyBlock_constant ..

theorem keyWords_first (i : Fin 4) :
    (keyWords cfg m keyAddr keyLen x)[4 + i.val] = loadWord m (keyAddr.toNat + 4 * i.val) := by
  unfold keyWords
  split_ifs <;> exact keyBlock_first ..

theorem keyWords_second_of_32 (i : Fin 4) :
    (keyWords cfg m keyAddr 32 x)[8 + i.val] = loadWord m (keyAddr.toNat + 16 + 4 * i.val) := by
  simp only [keyWords_of_32, keyBlock_second]

theorem keyWords_second_of_16 (i : Fin 4) :
    (keyWords cfg m keyAddr 16 x)[8 + i.val] = (keyWords cfg m keyAddr 16 x)[4 + i.val] := by
  simp only [keyWords_of_16, keyBlock_second, keyBlock_first]

/-- A 32-byte key is eight consecutive words. -/
theorem keyWords_key_of_32 (i : Fin 8) :
    (keyWords cfg m keyAddr 32 x)[4 + i.val] = loadWord m (keyAddr.toNat + 4 * i.val) := by
  by_cases hi : i.val < 4
  · exact keyWords_first cfg m keyAddr 32 x ⟨i.val, hi⟩
  · obtain ⟨j, hj⟩ : ∃ j : Fin 4, i.val = 4 + j.val := ⟨⟨i.val - 4, by omega⟩, by simp only; omega⟩
    have hword : 4 + i.val = 8 + j.val := by omega
    have haddr : keyAddr.toNat + 4 * i.val = keyAddr.toNat + 16 + 4 * j.val := by omega
    simp only [hword, haddr, keyWords_second_of_32]

/-- The words a key fills do not depend on what the context held. -/
theorem keyWords_lower_congr (y : Block) {j : Fin 16} (hj : j.val < 12) :
    (keyWords cfg m keyAddr keyLen x)[j] = (keyWords cfg m keyAddr keyLen y)[j] := by
  unfold keyWords
  split_ifs <;> simp [keyBlock, hj]

end

/-! ## The words `SETIV` leaves (R84) -/

section
variable (m : Memory) (nonceAddr counter : Word) (x : Block)

theorem ivWords_counter : (ivWords m nonceAddr counter x)[12] = counter := by
  simp [ivWords]

theorem ivWords_nonce (i : Fin 3) :
    (ivWords m nonceAddr counter x)[13 + i.val] = loadWord m (nonceAddr.toNat + 4 * i.val) := by
  have hgroup : ¬ 13 + i.val < 12 ∧ ¬ 13 + i.val = 12 := by omega
  simp [ivWords, hgroup]

/-- The words a counter and a nonce fill do not depend on what the context held. -/
theorem ivWords_upper_congr (y : Block) {j : Fin 16} (hj : 12 ≤ j.val) :
    (ivWords m nonceAddr counter x)[j] = (ivWords m nonceAddr counter y)[j] := by
  simp [ivWords, Nat.not_lt.mpr hj]

end

/-- The two commands fill disjoint words, neither from what the context held. -/
theorem keyWords_ivWords_comm (cfg : Config) (m : Memory) (keyAddr keyLen nonceAddr counter : Word) (x : Block) :
    keyWords cfg m keyAddr keyLen (ivWords m nonceAddr counter x) =
      ivWords m nonceAddr counter (keyWords cfg m keyAddr keyLen x) := by
  apply Vector.ext
  intro j hj
  obtain hlow | hhigh := Nat.lt_or_ge j 12
  · exact (keyWords_lower_congr (j := ⟨j, hj⟩) _ _ _ _ _ _ hlow).trans (ivWords_lower (j := ⟨j, hj⟩) _ _ _ _ hlow).symm
  · exact (keyWords_upper (j := ⟨j, hj⟩) _ _ _ _ _ hhigh).trans (ivWords_upper_congr (j := ⟨j, hj⟩) _ _ _ _ _ hhigh)

/-! ## `SETKEY` and `SETIV` complete -/

section
variable {s : State} {ctx : CtxNum}

theorem exec_setkey {keyAddr keyLen : Word} (hctx : ctx.toNat < s.nctx) (hlen : keyLen = 16 ∨ keyLen = 32)
    (hr : s.PlainRange keyAddr.toNat keyLen.toNat) :
    exec (.setkey ctx keyAddr keyLen) s = .next (effect (.setkey ctx keyAddr keyLen) s) :=
  exec_pass (State.checkCommand_eq_none_iff.mpr ⟨rfl, hctx, if_pos hlen⟩) ⟨hr, State.plainRange_empty .., trivial⟩

theorem exec_setiv {nonceAddr : Word} (hctx : ctx.toNat < s.nctx) (hr : s.PlainRange nonceAddr.toNat 12)
    (counter : Word) : exec (.setiv ctx nonceAddr 12 counter) s = .next (effect (.setiv ctx nonceAddr 12 counter) s) :=
  exec_pass (State.checkCommand_eq_none_iff.mpr ⟨rfl, hctx, rfl⟩) ⟨hr, State.plainRange_empty .., trivial⟩

variable {c : Context} (hc : s.ctxs[ctx.toNat]? = some c)
include hc

theorem effect_setkey_eq (keyAddr keyLen : Word) :
    effect (.setkey ctx keyAddr keyLen) s = { s with
      ctxs := s.ctxs.set ctx.toNat { x := keyWords s.cfg s.mem keyAddr keyLen c.x, keyed := true, ivset := c.ivset }
      captured := none
      status := { done := true, error := none, serr := s.status.serr } } := by
  simp only [effect, State.updCtx, State.modify_eq_set hc]
  rfl

theorem effect_setiv_eq (nonceAddr nonceLen counter : Word) :
    effect (.setiv ctx nonceAddr nonceLen counter) s = { s with
      ctxs := s.ctxs.set ctx.toNat { x := ivWords s.mem nonceAddr counter c.x, keyed := c.keyed, ivset := true }
      captured := none
      status := { done := true, error := none, serr := s.status.serr } } := by
  simp only [effect, State.updCtx, State.modify_eq_set hc]
  rfl

end

/-- Settles O11. -/
theorem setkeyLoadsKeyAndConstants : Obligations.SetkeyLoadsKeyAndConstants := by
  intro s ctx ka kl c hc hlen hr
  refine ⟨keyWords s.cfg s.mem ka kl c.x, ?completes, keyWords_constant _ _ _ _ _, keyWords_first _ _ _ _ _, ?long,
    ?short, fun i => keyWords_upper (j := ⟨12 + i.val, by omega⟩) _ _ _ _ _ (Nat.le_add_right ..)⟩
  case completes => rw [exec_setkey (State.lt_nctx_of_getElem? hc) hlen hr, effect_setkey_eq hc]
  case long => rintro rfl; exact keyWords_second_of_32 _ _ _ _
  case short => rintro rfl; exact keyWords_second_of_16 _ _ _ _

/-- Settles O12. -/
theorem setivLoadsCounterAndNonce : Obligations.SetivLoadsCounterAndNonce := by
  intro s ctx na counter c hc hr
  refine ⟨ivWords s.mem na counter c.x, ?completes,
    fun i => ivWords_lower (j := ⟨i.val, by omega⟩) _ _ _ _ i.isLt, ivWords_counter _ _ _ _, ivWords_nonce _ _ _ _⟩
  case completes => rw [exec_setiv (State.lt_nctx_of_getElem? hc) hr, effect_setiv_eq hc]

/-! ## The two in either order (R87) -/

/-- Neither effect changes the memory and the parameters, from which the other takes its words. -/
theorem effect_setkey_setiv_comm (s : State) (ctx : CtxNum) (keyAddr keyLen nonceAddr nonceLen counter : Word) :
    effect (.setiv ctx nonceAddr nonceLen counter) (effect (.setkey ctx keyAddr keyLen) s) =
      effect (.setkey ctx keyAddr keyLen) (effect (.setiv ctx nonceAddr nonceLen counter) s) := by
  simp only [effect, State.updCtx, State.completeOk, List.modify_modify_eq]
  congr 2
  funext c
  simp [Context.setKeyed, Context.setIvset, keyWords_ivWords_comm]

/-- After `SETIV` and then `SETKEY` a context has both flags, the words of each command laid over what it held. -/
theorem effect_setiv_setkey_context {s : State} {ctx : CtxNum} {c : Context} (hc : s.ctxs[ctx.toNat]? = some c)
    (keyAddr keyLen nonceAddr nonceLen counter : Word) :
    (effect (.setkey ctx keyAddr keyLen) (effect (.setiv ctx nonceAddr nonceLen counter) s)).ctxs[ctx.toNat]? =
      some { x := keyWords s.cfg s.mem keyAddr keyLen (ivWords s.mem nonceAddr counter c.x)
             keyed := true, ivset := true } := by
  have hiv := effect_context_named (.setiv ctx nonceAddr nonceLen counter) s
  rw [Instr.ctx, hc] at hiv
  have hkey := effect_context_named (.setkey ctx keyAddr keyLen) (effect (.setiv ctx nonceAddr nonceLen counter) s)
  rw [Instr.ctx, hiv] at hkey
  exact hkey

/-- Settles O13: since the orders agree, the final state is read as that of `SETKEY` after `SETIV`. -/
theorem schedulerBuildsInitialState : Obligations.SchedulerBuildsInitialState := by
  intro s ctx ka kl na counter c hc hlen hk hn
  have hctx : ctx.toNat < s.nctx := State.lt_nctx_of_getElem? hc
  have hiv_upper : ∀ j : Fin 16, 12 ≤ j.val →
      (keyWords s.cfg s.mem ka kl (ivWords s.mem na counter c.x))[j] = (ivWords s.mem na counter c.x)[j] :=
    fun j hj => keyWords_upper _ _ _ _ _ hj
  refine ⟨_, _, _, _, exec_setkey hctx hlen hk, ?setivAfter, exec_setiv hctx hn counter, ?setkeyAfter,
    effect_setiv_setkey_context hc _ _ _ 12 _, keyWords_constant _ _ _ _ _, ?long, ?short,
    (hiv_upper 12 (by decide)).trans (ivWords_counter _ _ _ _),
    fun i => (hiv_upper ⟨13 + i.val, by omega⟩ (by simp only; omega)).trans (ivWords_nonce _ _ _ _ i)⟩
  case setivAfter =>
    rw [exec_setiv (by rwa [effect_nctx]) (hn.congr (effect_platform ..)), effect_setkey_setiv_comm]
  case setkeyAfter => exact exec_setkey (by rwa [effect_nctx]) hlen (hk.congr (effect_platform ..))
  case long => rintro rfl; exact keyWords_key_of_32 _ _ _ _
  case short => rintro rfl i; exact ⟨keyWords_first _ _ _ _ _ i, keyWords_second_of_16 _ _ _ _ i⟩

end Sys2Proof.Machine
end

section
/-! PROOFS. The permutation core: the quarter-round is a bijection of quadruples, and applied in place it works on its own group
of words alone; from these two facts the rounds, their order, the lane-parallel form and the permutation; the block and its bytes;
and what zero words make of a `PROCESS` (spec 42_permutation R90 to R103, 43_stream R110, 70_reset_and_hazards R160). -/

namespace Sys2Proof.Machine

/-! ## The quarter-round on quadruples (R90, R91) -/

/-- Settles O49. -/
theorem quarterRoundExamples : Obligations.QuarterRoundExamples := by
  unfold Obligations.QuarterRoundExamples
  decide

/-- Four words, the operand and the result of a quarter-round. -/
abbrev Quad := Word × Word × Word × Word

/-- `QR` on a quadruple. -/
def qrQuad (q : Quad) : Quad := qr q.1 q.2.1 q.2.2.1 q.2.2.2

/-- Three of the twelve steps of R90: add, XOR, rotate. The result is turned so that the next three steps find their operands in
the same places. -/
def mix (n : Nat) (q : Quad) : Quad :=
  let a := add32 q.1 q.2.1
  (q.2.2.1, rotl32 (xor32 q.2.2.2 a) n, a, q.2.1)

theorem qrQuad_eq_mix : qrQuad = mix 7 ∘ mix 8 ∘ mix 12 ∘ mix 16 := rfl

theorem rotl32_injective {n : Nat} (hn : n < 32) : Function.Injective (rotl32 · n) := by
  intro v w h
  apply BitVec.eq_of_getLsbD_eq
  intro i hi
  rw [← getLsbD_rotl32 v hn hi, ← getLsbD_rotl32 w hn hi]
  exact congrArg (BitVec.getLsbD · _) h

theorem mix_injective {n : Nat} (hn : n < 32) : Function.Injective (mix n) := by
  rintro ⟨a, b, c, d⟩ ⟨a', b', c', d'⟩ h
  simp only [mix, Prod.mk.injEq] at h
  obtain ⟨rfl, hd, ha, rfl⟩ := h
  obtain rfl : a = a' := (BitVec.add_left_inj b).mp ha
  obtain rfl : d = d' := (BitVec.xor_left_inj _).mp (rotl32_injective hn hd)
  rfl

theorem qrQuad_injective : Function.Injective qrQuad := by
  rw [qrQuad_eq_mix]
  exact (mix_injective (by decide)).comp ((mix_injective (by decide)).comp
    ((mix_injective (by decide)).comp (mix_injective (by decide))))

/-- Settles O50: an injection of a finite type into itself. -/
theorem quarterRoundIsBijective : Obligations.QuarterRoundIsBijective :=
  Finite.injective_iff_bijective.mp qrQuad_injective

/-! ## The quarter-round in place -/

/-- The words of a block that a quarter-round at these indices works on. -/
def quad (w : Block) (i j k l : Fin 16) : Quad := (w[i], w[j], w[k], w[l])

section
variable {i j k l : Fin 16}

theorem getElem_eq_of_quad_eq {u v : Block} (h : quad u i j k l = quad v i j k l) {x : Fin 16} (hx : x ∈ [i, j, k, l]) :
    u[x] = v[x] := by
  simp only [quad, Prod.mk.injEq] at h
  obtain ⟨hi, hj, hk, hl⟩ := h
  simp only [List.mem_cons, List.not_mem_nil, or_false] at hx
  obtain rfl | rfl | rfl | rfl := hx
  exacts [hi, hj, hk, hl]

/-- Blocks are equal that agree on a group of words and on every word outside it. -/
theorem eq_of_quad_eq {u v : Block} (hin : quad u i j k l = quad v i j k l)
    (hout : ∀ x : Fin 16, x ∉ [i, j, k, l] → u[x] = v[x]) : u = v := by
  apply Vector.ext
  intro n hn
  by_cases hx : (⟨n, hn⟩ : Fin 16) ∈ [i, j, k, l]
  · exact getElem_eq_of_quad_eq hin hx
  · exact hout ⟨n, hn⟩ hx

theorem getElem_qrAt_other (w : Block) {x : Fin 16} (hx : x ∉ [i, j, k, l]) : (qrAt w i j k l)[x] = w[x] := by
  simp only [List.mem_cons, List.not_mem_nil, or_false, not_or, Fin.ext_iff] at hx
  obtain ⟨hi, hj, hk, hl⟩ := hx
  simp [qrAt, Ne.symm hi, Ne.symm hj, Ne.symm hk, Ne.symm hl]

theorem quad_qrAt_self (w : Block) (h : [i, j, k, l].Nodup) :
    quad (qrAt w i j k l) i j k l = qrQuad (quad w i j k l) := by
  simp only [List.nodup_cons, List.mem_cons, List.not_mem_nil, or_false, not_or, Fin.ext_iff] at h
  obtain ⟨⟨hij, hik, hil⟩, ⟨hjk, hjl⟩, hkl, -⟩ := h
  simp [quad, qrQuad, qrAt, Ne.symm hij, Ne.symm hik, Ne.symm hil, Ne.symm hjk, Ne.symm hjl, Ne.symm hkl]

theorem quad_qrAt_disjoint (w : Block) {i' j' k' l' : Fin 16} (h : ∀ x ∈ [i', j', k', l'], x ∉ [i, j, k, l]) :
    quad (qrAt w i j k l) i' j' k' l' = quad w i' j' k' l' := by
  have hword : ∀ x ∈ [i', j', k', l'], (qrAt w i j k l)[x] = w[x] := fun x hx => getElem_qrAt_other w (h x hx)
  simp only [quad, Prod.mk.injEq]
  exact ⟨hword i' (by simp), hword j' (by simp), hword k' (by simp), hword l' (by simp)⟩

theorem qrAt_injective (h : [i, j, k, l].Nodup) : Function.Injective (qrAt · i j k l) := by
  intro u v huv
  replace huv : qrAt u i j k l = qrAt v i j k l := huv
  apply eq_of_quad_eq (i := i) (j := j) (k := k) (l := l)
  · apply qrQuad_injective
    rw [← quad_qrAt_self u h, ← quad_qrAt_self v h, huv]
  · intro x hx
    rw [← getElem_qrAt_other u hx, ← getElem_qrAt_other v hx, huv]

/-- The two sides agree on the first group, on the second, and outside both. -/
theorem qrAt_comm (w : Block) {i' j' k' l' : Fin 16} (h : [i, j, k, l].Nodup) (h' : [i', j', k', l'].Nodup)
    (hd : ∀ x ∈ [i, j, k, l], x ∉ [i', j', k', l']) :
    qrAt (qrAt w i j k l) i' j' k' l' = qrAt (qrAt w i' j' k' l') i j k l := by
  have hd' : ∀ x ∈ [i', j', k', l'], x ∉ [i, j, k, l] := fun x hx' hx => hd x hx hx'
  have hfirst : quad (qrAt (qrAt w i j k l) i' j' k' l') i j k l = quad (qrAt (qrAt w i' j' k' l') i j k l) i j k l := by
    rw [quad_qrAt_disjoint _ hd, quad_qrAt_self _ h, quad_qrAt_self _ h, quad_qrAt_disjoint _ hd]
  have hsecond : quad (qrAt (qrAt w i j k l) i' j' k' l') i' j' k' l' =
      quad (qrAt (qrAt w i' j' k' l') i j k l) i' j' k' l' := by
    rw [quad_qrAt_self _ h', quad_qrAt_disjoint _ hd', quad_qrAt_disjoint _ hd', quad_qrAt_self _ h']
  refine eq_of_quad_eq hfirst fun x hx => ?_
  by_cases hx' : x ∈ [i', j', k', l']
  · exact getElem_eq_of_quad_eq hsecond hx'
  · rw [getElem_qrAt_other _ hx', getElem_qrAt_other _ hx, getElem_qrAt_other _ hx, getElem_qrAt_other _ hx']

end

/-- Settles O52; distinct indices are two groups, each without a repetition, that share none. -/
theorem quarterRoundsOnDisjointGroupsCommute : Obligations.QuarterRoundsOnDisjointGroupsCommute := by
  intro w i j k l i' j' k' l' h
  obtain ⟨hfirst, hsecond, hdisjoint⟩ := List.nodup_append'.mp (show ([i, j, k, l] ++ [i', j', k', l']).Nodup from h)
  exact qrAt_comm w hfirst hsecond fun _ hx hx' => hdisjoint hx hx'

/-! ## The rounds (R92, R93)

Of the four quarter-rounds of a round, the three on other groups leave a group alone. -/

theorem quad_colRound (w : Block) :
    quad (colRound w) 0 4 8 12 = qrQuad (quad w 0 4 8 12) ∧ quad (colRound w) 1 5 9 13 = qrQuad (quad w 1 5 9 13) ∧
    quad (colRound w) 2 6 10 14 = qrQuad (quad w 2 6 10 14) ∧ quad (colRound w) 3 7 11 15 = qrQuad (quad w 3 7 11 15) := by
  refine ⟨?_, ?_, ?_, ?_⟩ <;> simp (disch := decide) only [colRound, quad_qrAt_self, quad_qrAt_disjoint]

theorem quad_diagRound (w : Block) :
    quad (diagRound w) 0 5 10 15 = qrQuad (quad w 0 5 10 15) ∧ quad (diagRound w) 1 6 11 12 = qrQuad (quad w 1 6 11 12) ∧
    quad (diagRound w) 2 7 8 13 = qrQuad (quad w 2 7 8 13) ∧ quad (diagRound w) 3 4 9 14 = qrQuad (quad w 3 4 9 14) := by
  refine ⟨?_, ?_, ?_, ?_⟩ <;> simp (disch := decide) only [diagRound, quad_qrAt_self, quad_qrAt_disjoint]

/-- Settles O51, the four groups of each round one by one. -/
theorem roundsApplyQrToEachGroup : Obligations.RoundsApplyQrToEachGroup := by
  intro w k
  obtain ⟨c0, c1, c2, c3⟩ := quad_colRound w
  obtain ⟨d0, d1, d2, d3⟩ := quad_diagRound w
  match k with
  | 0 => exact ⟨c0, d0⟩
  | 1 => exact ⟨c1, d1⟩
  | 2 => exact ⟨c2, d2⟩
  | 3 => exact ⟨c3, d3⟩

/-! ## The lane-parallel form (R101 to R103) -/

/-- Rotations of four places in all restore a row. -/
theorem lrot_lrot {m n : Nat} (h : m + n = 4) (r : Row) : lrot (lrot r m) n = r := by
  apply Vector.ext
  intro k hk
  simp [lrot, Nat.add_assoc, Nat.add_comm n, h, Nat.mod_eq_of_lt hk]

/-- Lanes that are the results of `QR` are the result of `VQR`. -/
theorem vqr_eq {r0 r1 r2 r3 u0 u1 u2 u3 : Row}
    (h : ∀ k : Fin 4, (u0[k], u1[k], u2[k], u3[k]) = qr r0[k] r1[k] r2[k] r3[k]) :
    vqr r0 r1 r2 r3 = (u0, u1, u2, u3) := by
  simp only [vqr, ← h]
  simp only [Fin.getElem_fin, Vector.ofFn_getElem]

theorem vqr_rows (w : Block) : vqr (rowOf w 0) (rowOf w 1) (rowOf w 2) (rowOf w 3) =
    (rowOf (colRound w) 0, rowOf (colRound w) 1, rowOf (colRound w) 2, rowOf (colRound w) 3) := by
  refine vqr_eq fun k => ?_
  obtain ⟨h, -⟩ := roundsApplyQrToEachGroup w k
  simpa [rowOf] using h

theorem vqr_diagonalized_rows (w : Block) :
    vqr (rowOf w 0) (lrot (rowOf w 1) 1) (lrot (rowOf w 2) 2) (lrot (rowOf w 3) 3) =
      (rowOf (diagRound w) 0, lrot (rowOf (diagRound w) 1) 1, lrot (rowOf (diagRound w) 2) 2,
        lrot (rowOf (diagRound w) 3) 3) := by
  refine vqr_eq fun k => ?_
  obtain ⟨-, h⟩ := roundsApplyQrToEachGroup w k
  simpa [lrot, rowOf] using h

/-- Settles O53: the second `VQR` meets the diagonals in its lanes, and the last rotations undo the first. -/
theorem laneFormIsEquivalent : Obligations.LaneFormIsEquivalent := by
  refine fun w => ⟨?_, vqr_rows w⟩
  simp (disch := decide) only [doubleRoundLanes, vqr_rows, vqr_diagonalized_rows, lrot_lrot, doubleRound]

/-! ## The permutation and the block (R94, R96 to R100) -/

theorem colRound_injective : Function.Injective colRound :=
  (qrAt_injective (by decide)).comp ((qrAt_injective (by decide)).comp
    ((qrAt_injective (by decide)).comp (qrAt_injective (by decide))))

theorem diagRound_injective : Function.Injective diagRound :=
  (qrAt_injective (by decide)).comp ((qrAt_injective (by decide)).comp
    ((qrAt_injective (by decide)).comp (qrAt_injective (by decide))))

theorem block_finite : Finite Block :=
  Finite.of_injective (fun (w : Block) (i : Fin 16) => w[i]) fun _ _ h => Vector.ext fun i hi => congrFun h ⟨i, hi⟩

theorem doubleRound_bijective : Function.Bijective doubleRound :=
  have := block_finite
  Finite.injective_iff_bijective.mp (diagRound_injective.comp colRound_injective)

theorem doubleRounds_eq_iterate (n : Nat) (w : Block) : doubleRounds n w = doubleRound^[n] w := by
  induction n generalizing w with
  | zero => rfl
  | succ n ih => exact ih (doubleRound w)

theorem permute20_eq_iterate : permute20 = doubleRound^[10] :=
  funext (doubleRounds_eq_iterate 10)

/-- Settles O54: each quarter-round in place is an injection of the finite type of blocks, and so is their composition. -/
theorem permutationIsBijective : Obligations.PermutationIsBijective := by
  rw [Obligations.PermutationIsBijective, permute20_eq_iterate]
  exact doubleRound_bijective.iterate 10

theorem getElem_feedForward (w s : Block) (i : Fin 16) : (feedForward w s)[i] = add32 w[i] s[i] := by
  simp [feedForward]

/-- Settles O55. -/
theorem blockIsPermutationPlusInput : Obligations.BlockIsPermutationPlusInput :=
  fun s i => ⟨getElem_feedForward _ s i, congrFun permute20_eq_iterate s⟩

/-- Settles O56. -/
theorem serializeEmitsLittleEndianWords : Obligations.SerializeEmitsLittleEndianWords := by
  intro o i j
  have hword : (4 * i.val + j.val) / 4 = i.val := by omega
  have hbyte : (4 * i.val + j.val) % 4 = j.val := by omega
  simp [serialize, hword, hbyte]

/-! ## Zero words are a fixed point (R91, R160) -/

/-- The words a reset leaves in a context. -/
def zeroBlock : Block := Vector.replicate 16 0

theorem qrAt_zeroBlock (i j k l : Fin 16) : qrAt zeroBlock i j k l = zeroBlock := by
  have hqr : qr 0#32 0#32 0#32 0#32 = (0#32, 0#32, 0#32, 0#32) := by decide
  simp [qrAt, zeroBlock, hqr]

theorem doubleRounds_zeroBlock (n : Nat) : doubleRounds n zeroBlock = zeroBlock := by
  induction n with
  | zero => rfl
  | succ n ih => simp only [doubleRounds, doubleRound, colRound, diagRound, qrAt_zeroBlock, ih]

theorem block_zeroBlock : block zeroBlock = zeroBlock := by
  rw [block, permute20, doubleRounds_zeroBlock]
  decide

theorem keystreamByte_zeroBlock {j : Nat} (h : j < 64) : keystreamByte zeroBlock j = 0 := by
  have hzero : serialize zeroBlock = Vector.replicate 64 0 := by decide
  rw [keystreamByte_first _ h, block_zeroBlock, ksByte_of_lt _ h, hzero, Vector.getElem_replicate]

theorem zeroBlock_count_one : zeroBlock.set 12 (add32 zeroBlock[12] (BitVec.ofNat 32 1)) = zeroBlock.set 12 1 := rfl

/-- Settles O16: the keystream block of zero words is zero. -/
theorem processOnZeroWordsCopies : Obligations.ProcessOnZeroWordsCopies := by
  intro s ctx outA inA len c hm hc hx hpos hlen hin hout hov
  have hd : s.DutiesMet (.process ctx outA inA len) := ⟨hin, hout, hov⟩
  have hctx : (s.ctxAt ctx).x = zeroBlock := (congrArg Context.x (State.ctxAt_of_getElem? hc)).trans hx
  obtain ⟨hwords, -, hread⟩ := engineRun_spec hm ctx hd
  rw [hctx, blocksOf_last (Nat.ne_of_gt hpos) hlen] at hwords
  refine ⟨_, exec_pass (State.checkCommand_process (State.lt_nctx_of_getElem? hc) ..) hd, ?words, fun j hj => ?copy⟩
  case words =>
    refine (effect_context_named (.process ctx outA inA len) s).trans ?_
    rw [Instr.ctx, hc, Option.map_some, contextEffect, hwords, zeroBlock_count_one, hx, zeroBlock]
  case copy =>
    have hj' : outA.toNat + j - outA.toNat = j := by omega
    rw [effect_process_mem, hread, if_pos (by omega), hctx, hj', keystreamByte_zeroBlock (by omega)]
    exact BitVec.xor_zero

end Sys2Proof.Machine
end

section
/-! PROOFS. `PROCESS`: the closed form of its output, the empty command, the split at a block boundary, and the way back (spec
43_stream R110 to R118; 70_reset_and_hazards R161). -/

namespace Sys2Proof.Machine

/-! ## `PROCESS` completes -/

section
variable {s : State} {ctx : CtxNum} {outA inA len : Word}

theorem dutiesMet_process : s.DutiesMet (.process ctx outA inA len) ↔
    s.PlainRange inA.toNat len.toNat ∧ s.PlainRange outA.toNat len.toNat ∧
      SupportedOverlap outA.toNat inA.toNat len.toNat := Iff.rfl

theorem exec_process (hctx : ctx.toNat < s.nctx) (hd : s.DutiesMet (.process ctx outA inA len)) :
    exec (.process ctx outA inA len) s = .next (effect (.process ctx outA inA len) s) :=
  exec_pass (s.checkCommand_process hctx ..) hd

theorem effect_process_eq {c : Context} (hc : s.ctxs[ctx.toNat]? = some c) :
    effect (.process ctx outA inA len) s = { s with
      ctxs := s.ctxs.set ctx.toNat { c with x := (s.engineRun ctx outA inA len).x }
      mem := (s.engineRun ctx outA inA len).mem
      work := Work.cleared
      captured := none
      status := { done := true, error := none, serr := s.status.serr } } := by
  simp only [effect, State.absorb, State.updCtx, State.modify_eq_set hc]
  rfl

/-- After a `PROCESS` its context holds the words the engine ended with. -/
theorem effect_process_ctxAt_x {c : Context} (hc : s.ctxs[ctx.toNat]? = some c) :
    ((effect (.process ctx outA inA len) s).ctxAt ctx).x = (s.engineRun ctx outA inA len).x := by
  have hnamed := effect_context_named (.process ctx outA inA len) s
  rw [Instr.ctx, hc] at hnamed
  rw [State.ctxAt_of_getElem? hnamed, contextEffect]

/-- Output byte `j` is input byte `j`, as it was before the command, XOR byte `j` of the keystream (R117). -/
theorem engineRun_read_output (hm : Memory.wf s.mem) (hd : s.DutiesMet (.process ctx outA inA len)) {j : Nat}
    (hj : j < len.toNat) :
    (s.engineRun ctx outA inA len).mem.read (outA.toNat + j) =
      xor8 (s.mem.read (inA.toNat + j)) (keystreamByte (s.ctxAt ctx).x j) := by
  obtain ⟨-, -, hread⟩ := engineRun_spec hm ctx hd
  rw [hread, if_pos (by omega), Nat.add_sub_cancel_left]

end

/-- Settles O14, from what the engine does to the words and to the bytes inside and outside its output range. -/
theorem processClosedForm : Obligations.ProcessClosedForm := by
  intro s ctx outA inA len c hm hc hin hout hov
  have hd : s.DutiesMet (.process ctx outA inA len) := ⟨hin, hout, hov⟩
  obtain ⟨hx, -, -⟩ := engineRun_spec hm ctx hd
  rw [State.ctxAt_of_getElem? hc] at hx
  refine ⟨(s.engineRun ctx outA inA len).x, (s.engineRun ctx outA inA len).mem, Work.cleared, ?completes, ?counter,
    ?otherWords, fun j hj => ?inside, fun a ha => engineRun_read_outside s ctx inA hout.1 ha⟩
  case completes => rw [exec_process (State.lt_nctx_of_getElem? hc) hd, effect_process_eq hc]
  case counter => exact hx ▸ Vector.getElem_set_self _
  case otherWords =>
    intro i hi
    exact hx ▸ Vector.getElem_set_ne _ _ fun h => hi (Fin.ext h.symm)
  case inside =>
    rw [engineRun_read_output hm hd hj, State.ctxAt_of_getElem? hc]
    rfl

/-! ## The empty command (R114) -/

/-- A `PROCESS` of no bytes meets every duty, whatever its addresses. -/
theorem dutiesMet_process_zero (s : State) (ctx : CtxNum) (outA inA : Word) :
    s.DutiesMet (.process ctx outA inA 0) :=
  ⟨s.plainRange_empty inA, s.plainRange_empty outA, .inr (Nat.le_total ..)⟩

theorem effect_process_zero {s : State} {ctx : CtxNum} (hctx : ctx.toNat < s.nctx) (outA inA : Word) :
    effect (.process ctx outA inA 0) s = { s with
      work := Work.cleared
      captured := none
      status := { done := true, error := none, serr := s.status.serr } } := by
  obtain ⟨c, hc⟩ : ∃ c, s.ctxs[ctx.toNat]? = some c := ⟨_, List.getElem?_eq_getElem hctx⟩
  have hx : (s.engineRun ctx outA inA 0).x = c.x := congrArg Context.x (State.ctxAt_of_getElem? hc)
  have hm : (s.engineRun ctx outA inA 0).mem = s.mem := rfl
  have hset : s.ctxs.set ctx.toNat c = s.ctxs := by
    obtain ⟨hi, rfl⟩ := List.getElem?_eq_some_iff.mp hc
    exact List.set_getElem_self hi
  rw [effect_process_eq hc, hx, hm, hset]

/-- Settles O15: the block loop is not entered; an absent context is the one check a `PROCESS` can fail. -/
theorem processOfZeroLengthIsNoOp : Obligations.ProcessOfZeroLengthIsNoOp := by
  intro s ctx outA inA
  constructor
  · intro hctx
    exact ⟨Work.cleared, by rw [exec_process hctx (dutiesMet_process_zero ..), effect_process_zero hctx]⟩
  · intro habsent
    have hfail : s.checkCommand (.process ctx outA inA 0) = some .ctxAbsent := by
      simp [State.checkCommand, Instr.wf, Instr.ctx, habsent]
    exact exec_fail hfail

/-! ## The split at a block boundary (R116, R161) -/

theorem State.DutiesMet.congr {s t : State} {i : Instr} (hp : t.platform = s.platform) (h : s.DutiesMet i) :
    t.DutiesMet i := by
  obtain ⟨hr, hw, ho⟩ := h
  exact ⟨hr.congr hp, hw.congr hp, ho⟩

theorem State.PlainRange.drop {s : State} {a k n : Nat} (h : s.PlainRange a (k + n)) : s.PlainRange (a + k) n := by
  obtain ⟨htop, hplain⟩ := h
  exact ⟨by omega, fun i hi => by rw [Nat.add_assoc]; exact hplain (k + i) (by omega)⟩

theorem blocksOf_add {m : Nat} (hm : m % 64 = 0) (n : Nat) : blocksOf (m + n) = blocksOf m + blocksOf n := by
  unfold blocksOf; omega

theorem blocksOf_mul {m : Nat} (hm : m % 64 = 0) : 64 * blocksOf m = m := by
  unfold blocksOf; omega

section
variable {s : State} {ctx : CtxNum} {outA inA l1 l2 : Word}
  (hlen : (l1 + l2).toNat = l1.toNat + l2.toNat) (hd : s.DutiesMet (.process ctx outA inA (l1 + l2)))
include hlen hd

theorem dutiesMet_process_first : s.DutiesMet (.process ctx outA inA l1) := by
  rw [dutiesMet_process, hlen] at hd
  obtain ⟨hin, hout, hov⟩ := hd
  exact dutiesMet_process.mpr ⟨hin.mono (Nat.le_add_right ..), hout.mono (Nat.le_add_right ..), by omega⟩

/-- The first piece does not write the input of the second. -/
theorem effect_process_first_read_second_input {k : Nat} (hk : k < l2.toNat) :
    (effect (.process ctx outA inA l1) s).mem.read (inA.toNat + l1.toNat + k) =
      s.mem.read (inA.toNat + l1.toNat + k) := by
  refine effect_read_outside_of_duties (dutiesMet_process_first hlen hd) fun ⟨hlo, hhi⟩ => ?_
  rw [dutiesMet_process, hlen] at hd
  obtain ⟨-, -, hov⟩ := hd
  simp only [writeRange] at hlo hhi
  omega

/-- Neither address of a second piece that holds a byte wraps: the whole ranges end inside the address space. -/
theorem toNat_second_addresses (h2 : l2 ≠ 0) :
    (outA + l1).toNat = outA.toNat + l1.toNat ∧ (inA + l1).toNat = inA.toNat + l1.toNat := by
  have hpos : l2.toNat ≠ 0 := fun h => h2 (BitVec.eq_of_toNat_eq h)
  rw [dutiesMet_process, hlen] at hd
  obtain ⟨⟨hin, -⟩, ⟨hout, -⟩, -⟩ := hd
  exact ⟨toNat_add_of_le (by omega), toNat_add_of_le (by omega)⟩

theorem dutiesMet_process_second : s.DutiesMet (.process ctx (outA + l1) (inA + l1) l2) := by
  obtain rfl | h2 := eq_or_ne l2 0
  · exact dutiesMet_process_zero ..
  · obtain ⟨houtB, hinB⟩ := toNat_second_addresses hlen hd h2
    rw [dutiesMet_process, hlen] at hd
    obtain ⟨hin, hout, hov⟩ := hd
    rw [dutiesMet_process, houtB, hinB]
    exact ⟨hin.drop, hout.drop, by omega⟩

/-- The engine of the second piece, run after the first, ends with the words and the memory of the engine of the whole: the
counter it starts from is that of its first block, and its input bytes are as they were before the first piece. -/
theorem engineRun_split (h2 : l2 ≠ 0) (hm : Memory.wf s.mem) (h64 : l1.toNat % 64 = 0) (hctx : ctx.toNat < s.nctx) :
    ((effect (.process ctx outA inA l1) s).engineRun ctx (outA + l1) (inA + l1) l2).x =
        (s.engineRun ctx outA inA (l1 + l2)).x ∧
      ((effect (.process ctx outA inA l1) s).engineRun ctx (outA + l1) (inA + l1) l2).mem =
        (s.engineRun ctx outA inA (l1 + l2)).mem := by
  have hd1 := dutiesMet_process_first hlen hd
  have hd2 := (dutiesMet_process_second hlen hd).congr (effect_platform (.process ctx outA inA l1) s)
  obtain ⟨hx, hwf, hread⟩ := engineRun_spec hm ctx hd
  obtain ⟨hx1, -, hread1⟩ := engineRun_spec hm ctx hd1
  obtain ⟨hx2, hwf2, hread2⟩ := engineRun_spec (effect_mem_wf hm hd1) ctx hd2
  rw [effect_process_ctxAt_x (List.getElem?_eq_getElem hctx), hx1] at hx2 hread2
  obtain ⟨houtB, hinB⟩ := toNat_second_addresses hlen hd h2
  rw [hlen] at hx hread
  rw [houtB, hinB] at hread2
  refine ⟨by rw [hx2, hx, set_counter_add, blocksOf_add h64], Memory.ext_of_read hwf2 hwf fun a => ?_⟩
  by_cases hsecond : outA.toNat + l1.toNat ≤ a ∧ a < outA.toNat + l1.toNat + l2.toNat
  · obtain ⟨k, rfl⟩ := Nat.exists_eq_add_of_le hsecond.1
    have hk : outA.toNat + l1.toNat + k - outA.toNat = l1.toNat + k := by omega
    rw [hread2, if_pos hsecond, Nat.add_sub_cancel_left,
      effect_process_first_read_second_input hlen hd (by omega), keystreamByte_later, blocksOf_mul h64, hread,
      if_pos (by omega), hk, Nat.add_assoc]
  · rw [hread2, if_neg hsecond, effect_process_mem, hread1, hread]
    by_cases hfirst : outA.toNat ≤ a ∧ a < outA.toNat + l1.toNat
    · rw [if_pos hfirst, if_pos (by omega)]
    · rw [if_neg hfirst, if_neg (by omega)]

end

/-- What an engine leaves in the state is its words and its memory. -/
theorem State.absorb_congr (s : State) (ctx : CtxNum) {e e' : Engine} (hx : e.x = e'.x) (hm : e.mem = e'.mem) :
    s.absorb ctx e = s.absorb ctx e' := by
  rw [State.absorb, State.absorb, hx, hm]

/-- A second engine on the same context overwrites all that the first left. -/
theorem State.absorb_absorb (s : State) (ctx : CtxNum) (e e' : Engine) :
    ((s.absorb ctx e).completeOk.absorb ctx e').completeOk = (s.absorb ctx e').completeOk := by
  simp only [State.absorb, State.updCtx, State.completeOk, List.modify_modify_eq]
  rfl

/-- The pieces, one after the other, have the effect of the whole; an empty second piece has none. -/
theorem effect_process_split {s : State} {ctx : CtxNum} {outA inA l1 l2 : Word} (hm : Memory.wf s.mem)
    (h64 : l1.toNat % 64 = 0) (hlen : (l1 + l2).toNat = l1.toNat + l2.toNat) (hctx : ctx.toNat < s.nctx)
    (hd : s.DutiesMet (.process ctx outA inA (l1 + l2))) :
    effect (.process ctx (outA + l1) (inA + l1) l2) (effect (.process ctx outA inA l1) s) =
      effect (.process ctx outA inA (l1 + l2)) s := by
  obtain rfl | h2 := eq_or_ne l2 0
  · rw [effect_process_zero (by rwa [effect_nctx]), add_zero]
    rfl
  · obtain ⟨hx, hmem⟩ := engineRun_split hlen hd h2 hm h64 hctx
    refine (s.absorb_absorb ctx _ _).trans ?_
    rw [s.absorb_congr ctx hx hmem, effect]

/-- Settles O17: each piece meets the duties that the whole does, and the pieces have its effect. -/
theorem processSplitsAtBlockBoundaries : Obligations.ProcessSplitsAtBlockBoundaries := by
  intro s ctx outA inA l1 l2 hm h64 hfit hctx hd
  have hlen : (l1 + l2).toNat = l1.toNat + l2.toNat := toNat_add_of_le hfit
  have hd2 : s.DutiesMet (.process ctx (outA + l1) (inA + l1) l2) := dutiesMet_process_second hlen hd
  refine ⟨_, _, exec_process hctx hd, exec_process hctx (dutiesMet_process_first hlen hd), ?_⟩
  rw [exec_process (by rwa [effect_nctx]) (hd2.congr (effect_platform ..)), effect_process_split hm h64 hlen hctx hd]

/-! ## The way back (R118) -/

theorem xor8_cancel (a k : Byte) : xor8 (xor8 a k) k = a := by
  rw [xor8, xor8, BitVec.xor_assoc, BitVec.xor_self, BitVec.xor_zero]

/-- Settles O18: the same words generate the same keystream, and a byte XORed with it twice is the byte. -/
theorem processIsAnInvolution : Obligations.ProcessIsAnInvolution := by
  intro s u ctx ctx' outA inA back len c c' hm hm' hc hc' hx hd hd'
  refine ⟨_, _, exec_process (State.lt_nctx_of_getElem? hc) hd, exec_process (State.lt_nctx_of_getElem? hc') hd',
    fun hsame j hj => ?_⟩
  rw [effect_process_mem, engineRun_read_output hm' hd' hj, hsame j hj, effect_process_mem,
    engineRun_read_output hm hd hj, State.ctxAt_of_getElem? hc, State.ctxAt_of_getElem? hc', hx, xor8_cancel]

end Sys2Proof.Machine
end

section
/-! PROOFS. The snapshot commands: the image `SAVECTX` writes, the words `LOADCTX` reads, the two one after the other, and a core
without them (spec 44_snapshot R125 to R129). -/

namespace Sys2Proof.Machine

/-! ## The image and its words (R126, R127) -/

/-- The four bytes of a word in memory are those it was loaded from. -/
theorem getElem_bytesLE_loadWord (m : Memory) (a : Nat) (j : Fin 4) : (bytesLE (loadWord m a))[j] = m.read (a + j.val) := by
  rw [loadWord, bytesLE_le32]
  match j with
  | 0 | 1 | 2 | 3 => rfl

/-- A word whose four bytes stand at `a` is the word loaded from there. -/
theorem loadWord_eq_of_bytes {m : Memory} {a : Nat} {v : Word}
    (h : ∀ j : Fin 4, m.read (a + j.val) = (bytesLE v)[j]) : loadWord m a = v := by
  have h0 : m.read a = (bytesLE v)[0] := h 0
  have h1 : m.read (a + 1) = (bytesLE v)[1] := h 1
  have h2 : m.read (a + 2) = (bytesLE v)[2] := h 2
  have h3 : m.read (a + 3) = (bytesLE v)[3] := h 3
  rw [loadWord, h0, h1, h2, h3, le32_bytesLE]

theorem getElem_imageWords (m : Memory) (a : Nat) (i : Fin 16) : (imageWords m a)[i] = loadWord m (a + 4 * i.val) := by
  simp [imageWords]

/-- The image of R127 written at `a`, byte by byte. -/
theorem read_writeImage_byte {m : Memory} (h : Memory.wf m) {a : Nat} (ha : a + 64 ≤ memTop) (x : Block) (i : Fin 16)
    (j : Fin 4) : (m.writeBytes a (serialize x).toList).read (a + 4 * i.val + j.val) = (bytesLE x[i])[j] := by
  have hoffset : a + 4 * i.val + j.val - a = 4 * i.val + j.val := by omega
  have hlt : 4 * i.val + j.val < 64 := by omega
  rw [read_writeImage h ha, if_pos (by omega), hoffset, ← serializeEmitsLittleEndianWords x i j]
  simp [List.getD_eq_getElem?_getD, hlt]

/-- An image just written holds the words it was made of. -/
theorem imageWords_writeImage {m : Memory} (h : Memory.wf m) {a : Nat} (ha : a + 64 ≤ memTop) (x : Block) :
    imageWords (m.writeBytes a (serialize x).toList) a = x := by
  have hword : ∀ i : Fin 16, (imageWords (m.writeBytes a (serialize x).toList) a)[i] = x[i] := by
    intro i
    rw [getElem_imageWords, loadWord_eq_of_bytes (read_writeImage_byte h ha x i)]
  exact Vector.ext fun i hi => hword ⟨i, hi⟩

/-! ## The commands complete -/

section
variable {s : State} {ctx : CtxNum} {addr : Word}

theorem exec_savectx (hen : s.cfg.snapshotEn = true) (hctx : ctx.toNat < s.nctx) (hp : s.PlainRange addr.toNat 64) :
    exec (.savectx ctx addr) s = .next (effect (.savectx ctx addr) s) :=
  exec_pass (State.checkCommand_eq_none_iff.mpr ⟨hen, hctx, rfl⟩) (dutiesMet_savectx.mpr hp)

theorem exec_loadctx (hen : s.cfg.snapshotEn = true) (hctx : ctx.toNat < s.nctx) (hp : s.PlainRange addr.toNat 64) :
    exec (.loadctx ctx addr) s = .next (effect (.loadctx ctx addr) s) :=
  exec_pass (State.checkCommand_eq_none_iff.mpr ⟨hen, hctx, rfl⟩) (dutiesMet_loadctx.mpr hp)

theorem effect_savectx_eq {c : Context} (hc : s.ctxs[ctx.toNat]? = some c) (addr : Word) :
    effect (.savectx ctx addr) s = { s with
      mem := s.mem.writeBytes addr.toNat (serialize c.x).toList
      captured := none
      status := { done := true, error := none, serr := s.status.serr } } := by
  simp only [effect, State.completeOk, State.ctxAt_of_getElem? hc]

theorem effect_loadctx_eq (hctx : ctx.toNat < s.nctx) (addr : Word) :
    effect (.loadctx ctx addr) s = { s with
      ctxs := s.ctxs.set ctx.toNat { x := imageWords s.mem addr.toNat, keyed := true, ivset := true }
      captured := none
      status := { done := true, error := none, serr := s.status.serr } } := by
  simp only [effect, State.updCtx, State.modify_eq_set (List.getElem?_eq_getElem hctx)]
  rfl

theorem effect_loadctx_context (hctx : ctx.toNat < s.nctx) (addr : Word) :
    (effect (.loadctx ctx addr) s).ctxs[ctx.toNat]? =
      some { x := imageWords s.mem addr.toNat, keyed := true, ivset := true } := by
  rw [effect_loadctx_eq hctx]
  exact List.getElem?_set_self hctx

end

/-- Settles O19. -/
theorem savectxWritesImage : Obligations.SavectxWritesImage := by
  intro s ctx addr c hm hen hc hp
  have hctx : ctx.toNat < s.nctx := State.lt_nctx_of_getElem? hc
  refine ⟨s.mem.writeBytes addr.toNat (serialize c.x).toList, ?completes, read_writeImage_byte hm hp.1 c.x,
    fun a ha => ?outside⟩
  case completes => rw [exec_savectx hen hctx hp, effect_savectx_eq hc]
  case outside => exact (read_writeImage hm hp.1 c.x a).trans (if_neg ha)

/-- Settles O20. -/
theorem loadctxReadsImage : Obligations.LoadctxReadsImage := by
  intro s ctx addr hen hctx hp
  exact ⟨imageWords s.mem addr.toNat, by rw [exec_loadctx hen hctx hp, effect_loadctx_eq hctx],
    getElem_imageWords s.mem addr.toNat⟩

/-! ## The snapshot laws (R128) -/

/-- A `SAVECTX` of the context a `LOADCTX` has filled writes the bytes the image was read from. -/
theorem effect_loadctx_savectx_read {s : State} {ctx : CtxNum} (hm : Memory.wf s.mem) (hctx : ctx.toNat < s.nctx)
    (a : Word) {b : Word} (hb : b.toNat + 64 ≤ memTop) {k : Nat} (hk : k < 64) :
    (effect (.savectx ctx b) (effect (.loadctx ctx a) s)).mem.read (b.toNat + k) = s.mem.read (a.toNat + k) := by
  have hsplit : ∀ n, n + k = n + 4 * (k / 4) + k % 4 := by omega
  have hwf : Memory.wf (effect (.loadctx ctx a) s).mem := hm
  have hbyte := read_writeImage_byte hwf hb (imageWords s.mem a.toNat) ⟨k / 4, by omega⟩ ⟨k % 4, by omega⟩
  rw [effect_savectx_eq (effect_loadctx_context hctx a), hsplit b.toNat, hbyte, getElem_imageWords,
    getElem_bytesLE_loadWord, hsplit a.toNat]

/-- Settles O21: a load depends on the 64 bytes only, and an image holds the words it was made of. -/
theorem snapshotRestoresWords : Obligations.SnapshotRestoresWords := by
  constructor
  · intro s u ctx ctx' addr c hm hen hen' hc hctx' hp hp'
    refine ⟨_, _, exec_savectx hen (State.lt_nctx_of_getElem? hc) hp, exec_loadctx hen' hctx' hp',
      fun hsame => ⟨_, effect_loadctx_context hctx' addr, ?words⟩⟩
    case words =>
      have hagree : ∀ x, InRange (addr.toNat, 64) x → u.mem.read x = (effect (.savectx ctx addr) s).mem.read x := by
        rintro x ⟨hlo, hhi⟩
        obtain ⟨i, rfl⟩ := Nat.exists_eq_add_of_le hlo
        exact hsame i (Nat.lt_of_add_lt_add_left hhi)
      calc imageWords u.mem addr.toNat
          = imageWords (effect (.savectx ctx addr) s).mem addr.toNat := imageWords_congr hagree
        _ = c.x := by rw [effect_savectx_eq hc, imageWords_writeImage hm hp.1]
  · intro s ctx a b hm hen hctx ha hb
    refine ⟨_, _, exec_loadctx hen hctx ha, exec_savectx ?enabled ?present (hb.congr (effect_platform ..)),
      fun i hi => effect_loadctx_savectx_read hm hctx a hb.1 hi⟩
    case enabled => rwa [effect_cfg]
    case present => rwa [effect_nctx]

/-! ## A core without the snapshot commands (R129) -/

/-- The converse of `decode_encode`: an instruction the core lacks has an illegal encoding. -/
theorem decode_encode_error {en : Bool} {i : Instr} (h : i.wf en = false) : ∃ r, decode en (encode i) = .error r := by
  cases i with
  | setkey | setiv | process => cases h
  | savectx | loadctx =>
    obtain rfl : en = false := h
    simp [encode, decode_savectx, decode_loadctx, decodeFormS_error_iff]

/-- The encoding is the first thing checked (R133). -/
theorem State.checkCommand_of_not_wf {s : State} {i : Instr} (h : i.wf s.cfg.snapshotEn = false) :
    s.checkCommand i = some .illegalCmd := if_pos h

/-- Settles O24. -/
theorem snapshotDisabledFailsWithCauseFour : Obligations.SnapshotDisabledFailsWithCauseFour := by
  intro s ctx addr hen i hi
  have hwf : i.wf s.cfg.snapshotEn = false := by
    obtain rfl | rfl := hi <;> exact hen
  exact ⟨decode_encode_error hwf, exec_fail (State.checkCommand_of_not_wf hwf)⟩

end Sys2Proof.Machine
end

section
/-! PROOFS. How a command ends: the checks of its fields, its completion with and without an error, the core with no command,
and the command that reset abandons (spec 60_exceptions R130 to R136, R146; 70_reset_and_hazards R152, R165). -/

namespace Sys2Proof.Machine

/-! ## Completion and acceptance -/

/-- Settles O22. -/
theorem failingCommandChangesOnlyStatus : Obligations.FailingCommandChangesOnlyStatus :=
  fun _ _ _ h => exec_fail h

/-- A command that passes its checks completes, if at all, with its effect. -/
theorem eq_effect_of_exec {s t : State} {i : Instr} (hk : s.checkCommand i = none) (h : exec i s = .next t) :
    t = effect i s := by
  obtain ⟨k, hfail, -⟩ | ⟨-, -, ht⟩ := exec_next_iff.mp h
  · rw [hk] at hfail; cases hfail
  · exact ht

/-- Settles O8: completion with `OK` is that of every effect, and acceptance captures the command. -/
theorem completionAndAcceptanceSetStatus : Obligations.CompletionAndAcceptanceSetStatus := by
  constructor
  · intro s t i hk h
    obtain rfl := eq_effect_of_exec hk h
    exact ⟨effect_busy i s, effect_status i s⟩
  · exact fun s d rest hh hready => ⟨_, acceptanceCapturesCommand s d rest hh hready, rfl, rfl⟩

/-! ## The checks in their order (R133) -/

/-- The context is the second thing checked. -/
theorem State.checkCommand_of_absent {s : State} {i : Instr} (hw : i.wf s.cfg.snapshotEn = true)
    (hc : s.nctx ≤ i.ctx.toNat) : s.checkCommand i = some .ctxAbsent := by
  rw [State.checkCommand, if_neg (by simp [hw]), if_pos hc]

/-- The length is the last thing checked. -/
theorem State.checkCommand_of_present {s : State} {i : Instr} (hw : i.wf s.cfg.snapshotEn = true)
    (hc : i.ctx.toNat < s.nctx) : s.checkCommand i = lengthError i := by
  rw [State.checkCommand, if_neg (by simp [hw]), if_neg (Nat.not_le.mpr hc)]

theorem lengthError_eq_none {i : Instr} (hkey : ∀ c a n, i = .setkey c a n → n = 16 ∨ n = 32)
    (hnonce : ∀ c a n k, i = .setiv c a n k → n = 12) : lengthError i = none := by
  cases i with
  | setkey c a n => exact if_pos (hkey c a n rfl)
  | setiv c a n k => exact if_pos (hnonce c a n k rfl)
  | process | savectx | loadctx => rfl

/-- A decoded command that fails a later check ends with that check's cause. -/
theorem runCommand_fail {d : Command} {s : State} {i : Instr} {k : Cause} (h : decode s.cfg.snapshotEn d = .ok i)
    (hk : s.checkCommand i = some k) : runCommand d s = .next (s.completeErr k) :=
  (runCommand_legal h).trans (exec_fail hk)

/-- Settles O23: what decodes is well-formed, so the encoding check of `State.checkCommand` is passed. -/
theorem checksReportTheFirstFailure : Obligations.ChecksReportTheFirstFailure := by
  intro s d i
  have hwf {j : Instr} (h : decode s.cfg.snapshotEn d = .ok j) : j.wf s.cfg.snapshotEn = true :=
    (encode_eq_and_wf_of_decode h).2
  refine ⟨runCommand_illegal, ?absent, ?keyLength, ?nonceLength, ?passes⟩
  case absent => exact fun h hc => runCommand_fail h (State.checkCommand_of_absent (hwf h) hc)
  case keyLength =>
    intro c a n h hc hn
    exact runCommand_fail h ((State.checkCommand_of_present (hwf h) hc).trans (if_neg hn))
  case nonceLength =>
    intro c a n k h hc hn
    exact runCommand_fail h ((State.checkCommand_of_present (hwf h) hc).trans (if_neg hn))
  case passes =>
    intro h hc hkey hnonce t ht
    have hk : s.checkCommand i = none :=
      (State.checkCommand_of_present (hwf h) hc).trans (lengthError_eq_none hkey hnonce)
    obtain rfl := eq_effect_of_exec hk ((runCommand_legal h).symm.trans ht)
    rw [effect_status]

/-! ## Every accepted command completes -/

theorem runCommand_completes {d : Command} {s : State}
    (h : ∀ i, decode s.cfg.snapshotEn d = .ok i → s.checkCommand i = none → s.DutiesMet i) :
    ∃ t, runCommand d s = .next t := by
  cases hdec : decode s.cfg.snapshotEn d with
  | error r => exact ⟨_, runCommand_illegal ⟨r, hdec⟩⟩
  | ok i =>
    cases hk : s.checkCommand i with
    | some k => exact ⟨_, runCommand_fail hdec hk⟩
    | none => exact ⟨_, (runCommand_legal hdec).trans (exec_pass hk (h i hdec hk))⟩

theorem runCommand_done {d : Command} {s t : State} (h : runCommand d s = .next t) : t.status.done = true := by
  obtain ⟨-, -, rfl⟩ | ⟨i, -, he⟩ := runCommand_next_iff.mp h
  · rfl
  obtain ⟨-, -, rfl⟩ | ⟨-, -, rfl⟩ := exec_next_iff.mp he
  · rfl
  · rw [effect_status]

theorem State.busy_eq_false {s : State} (h : s.captured = none) : s.busy = false := by
  rw [State.busy, h]; rfl

/-- Settles O37. -/
theorem acceptedCommandCompletes : Obligations.AcceptedCommandCompletes := by
  intro s d hwaits hc hduties
  obtain ⟨t, ht⟩ := runCommand_completes hduties
  obtain ⟨-, hidle⟩ := runCommand_host_captured ht
  exact ⟨t, (step_of_waits hwaits hc).trans ht, State.busy_eq_false hidle, runCommand_done ht⟩

/-- Settles O10. -/
theorem idleCoreKeepsState : Obligations.IdleCoreKeepsState := by
  intro s hh hc
  simp only [step, hh, coreTurn, hc]

/-! ## Reset while a command executes (R152) -/

theorem step_assertReset {s : State} {rest : List HostAct} (h : s.host = .assertReset :: rest) :
    step s = hostReset { s with host := rest } := by
  rw [step, h]

/-- Reset of a core whose command could have run to its end: the bytes that have landed are taken from that run. -/
theorem hostReset_of_run {s u : State} {d : Command} (hc : s.captured = some d) (hrun : runCommand d s = .next u) :
    hostReset s = .next { s with
      mem := abandonedMemory s.draws s.abandonedRange.1 s.abandonedRange.2 s.mem u.mem
      draws := s.draws + 1 }.resetCore := by
  simp only [hostReset, hc, abandon, hrun]

/-- What the host sees of the core while `rst` is asserted: idle, `STATUS` and `CTXFLAGS` 0, every context cleared. -/
theorem State.resetCore_views (s : State) :
    s.resetCore.busy = false ∧ s.resetCore.statusWord = 0 ∧ s.resetCore.ctxFlagsWord = 0 ∧ s.resetCore.nctx = s.nctx ∧
      ∀ k, k < s.nctx → s.resetCore.ctxs[k]? = some Context.cleared :=
  ⟨rfl, State.statusWord_idle_cleared rfl rfl, State.ctxFlagsWord_cleared fun _ => State.resetCore_ctxs_mem,
    s.resetCore_nctx, fun _ => State.resetCore_getElem?⟩

theorem State.abandonedRange_of_inFlight {s : State} {i : Instr} (h : s.inFlight = some i) :
    s.abandonedRange = writeRange i := by
  rw [State.abandonedRange, h]

/-- A captured command that is illegal or fails its checks has nothing in flight to abandon. -/
theorem State.abandonedRange_of_failing {s : State} {d : Command} (hc : s.captured = some d)
    (hfail : ∀ i, decode s.cfg.snapshotEn d = .ok i → s.checkCommand i ≠ none) : s.abandonedRange = (0, 0) := by
  unfold State.abandonedRange
  split
  · next i hi =>
    obtain ⟨d', hc', hdec, hk⟩ := State.inFlight_eq_some_iff.mp hi
    obtain rfl : d = d' := Option.some.inj (hc.symm.trans hc')
    exact absurd hk (hfail i hdec)
  · rfl

/-- Reset abandons a command launched as the host's duties ask: of its write footprint it leaves each byte old or new. -/
theorem hostReset_launched {s : State} {d : Command} {i : Instr} (hc : s.captured = some d)
    (hdec : decode s.cfg.snapshotEn d = .ok i) (hk : s.checkCommand i = none) (hd : s.DutiesMet i) :
    hostReset s = .next { s with
      mem := abandonedMemory s.draws (writeRange i).1 (writeRange i).2 s.mem (effect i s).mem
      draws := s.draws + 1 }.resetCore := by
  rw [hostReset_of_run hc ((runCommand_legal hdec).trans (exec_pass hk hd)),
    State.abandonedRange_of_inFlight (State.inFlight_eq_some_iff.mpr ⟨d, hc, hdec, hk⟩)]

/-- Reset abandons a command that is illegal or fails its checks with no byte of memory written. -/
theorem hostReset_failing {s : State} {d : Command} (hc : s.captured = some d)
    (hfail : ∀ i, decode s.cfg.snapshotEn d = .ok i → s.checkCommand i ≠ none) :
    hostReset s = .next { s with draws := s.draws + 1 }.resetCore := by
  obtain ⟨u, hu⟩ := runCommand_completes fun i hdec hk => absurd hk (hfail i hdec)
  rw [hostReset_of_run hc hu, State.abandonedRange_of_failing hc hfail]
  rfl

/-- The host's list plays no part in the bytes a command writes. -/
theorem effect_mem_of_host (i : Instr) (s : State) (rest : List HostAct) :
    (effect i { s with host := rest }).mem = (effect i s).mem := by
  cases i <;> rfl

theorem read_abandonedMemory_outside {old : Memory} (h : Memory.wf old) (draw : Nat) {r : Nat × Nat} (new : Memory)
    (hr : r.1 + r.2 ≤ memTop) {a : Nat} (ha : ¬ InRange r a) :
    (abandonedMemory draw r.1 r.2 old new).read a = old.read a :=
  (read_abandonedMemory h draw new hr a).trans (if_neg fun hin => ha hin.1)

theorem read_abandonedMemory_old_or_new {old : Memory} (h : Memory.wf old) (draw : Nat) {r : Nat × Nat} (new : Memory)
    (hr : r.1 + r.2 ≤ memTop) (a : Nat) :
    (abandonedMemory draw r.1 r.2 old new).read a = old.read a ∨
      (abandonedMemory draw r.1 r.2 old new).read a = new.read a := by
  rw [read_abandonedMemory h draw new hr]
  exact (ite_eq_or_eq _ _ _).symm

/-- Settles O44. What reset leaves of the core is the same in both cases; they differ in the memory. -/
theorem resetAbandonsCommand : Obligations.ResetAbandonsCommand := by
  constructor
  · intro s d i rest hm hh hc hdec hk hd
    have hreset := hostReset_launched (s := { s with host := rest }) hc hdec hk hd
    rw [effect_mem_of_host] at hreset
    have ⟨_, ⟨htop, _⟩, _⟩ := hd
    obtain ⟨hbusy, hstatus, hflags, hnctx, hctxs⟩ := State.resetCore_views _
    exact ⟨_, _, (step_assertReset hh).trans hreset, exec_pass hk hd, hbusy, hstatus, hflags, hnctx, hctxs,
      fun a ha => read_abandonedMemory_outside hm s.draws _ htop ha,
      fun a _ => read_abandonedMemory_old_or_new hm s.draws _ htop a⟩
  · intro s d rest hh hc hfail
    exact ⟨_, (step_assertReset hh).trans (hostReset_failing (s := { s with host := rest }) hc hfail), rfl, rfl,
      State.resetCore_views _⟩

end Sys2Proof.Machine
end
